-- ==== Sys2Proof/Word.lean ====
section
/-! DEFINITION. The machine's bit-vector types: words, bytes and the fields of an instruction word. -/

namespace Sys2Proof

/-- A 32-bit word: a register value, an address, the program counter or an instruction (R6, R10, R16, R50). -/
abbrev Word := BitVec 32

/-- The unit of an address (R30). -/
abbrev Byte := BitVec 8

/-- A register number: the 5-bit fields `rs`, `rt`, `rd` (R10, R51). -/
abbrev RegNum := BitVec 5

/-- A shift amount: the 5-bit field `shamt` (R51, R60). -/
abbrev Shamt := BitVec 5

/-- The 16-bit field `imm` of an I-type word (R52). -/
abbrev Imm := BitVec 16

/-- The 26-bit field `addr` of a J-type word (R53). -/
abbrev JumpField := BitVec 26

end Sys2Proof
end

