-- ==== Sys2Proof/Machine/Flags.lean ====
section
/-! DEFINITION. The machine has no flags (R19). The one condition an arithmetic result raises is signed overflow. -/

namespace Sys2Proof.Machine

/-- Signed overflow (R80): the exact sum or difference `S` lies outside the signed 32-bit range. -/
def signedOverflow (S : Int) : Bool := decide (S < -2147483648 ∨ 2147483647 < S)

/-- `S mod 2^32` (R80). -/
def wrap32 (S : Int) : Word := BitVec.ofInt 32 S

end Sys2Proof.Machine
end

