-- ==== Sys2Proof/Config.lean ====
section
/-! DEFINITION. The implementation parameters of 00_scope.md R5: the three fixed numbers and the launch parameters.
No value of this spec is left undefined after an instruction that goes on, so there is no free value here. -/

namespace Sys2Proof

/-- `XLEN`: register and data width (R5). -/
def Config.xlen : Nat := 32

/-- `ILEN`: instruction width (R5, R50). -/
def Config.ilen : Nat := 32

/-- `NREGS`: number of general registers (R5, R10). -/
def Config.nregs : Nat := 32

/-- The number of addresses: an address is 32 bits (R30). -/
def Config.addressCount : Nat := 4294967296

/-- The default of `TEXT_BASE` (R5). -/
def Config.defaultTextBase : Word := 0x00400000#32

/-- `OVERFLOW_POLICY` (R5, R80): what signed overflow of `add`, `sub` and `addi` does. -/
inductive OverflowPolicy where
  | fault
  | wrap
  deriving DecidableEq, Repr

/-- `ENDIAN` (R5, R37): which byte of a word lies at its lowest address. No program can observe it. -/
inductive Endian where
  | big
  | little
  deriving DecidableEq, Repr

/-- One run of consecutive words of `DATA_REGION`: `words` words from address `base` up (log entry 27). -/
structure Region where
  base : Word
  words : Nat
  deriving DecidableEq, Repr

/-- The launch parameters that stay fixed for a whole run (R5). `REGS0` and `MEM0` are not here: they are
consumed at launch (R24) and become the first registers and memory. -/
structure Launch where
  /-- `TEXT_BASE`. -/
  textBase : Word
  /-- `PROG`: word number `k` stands at `TEXT_BASE + 4*k` (R22). -/
  prog : List Word
  /-- `DATA_REGION`, less the text region (R31; log entries 17 and 27). -/
  dataRegion : List Region
  /-- `OVERFLOW_POLICY`. -/
  overflow : OverflowPolicy
  /-- `ENDIAN`. -/
  endian : Endian
  deriving DecidableEq, Repr

/-- The launch parameters of `State.reset`: the spec's defaults for `TEXT_BASE` and `OVERFLOW_POLICY` (R5); for the
three the spec leaves open, the empty program, the whole address space as data, and big-endian byte order.
DESIGN CHOICE, log entries 2, 3 and 6. -/
def Config.resetLaunch : Launch where
  textBase := Config.defaultTextBase
  prog := []
  dataRegion := [⟨0#32, 1073741824⟩]
  overflow := .fault
  endian := .big

end Sys2Proof
end

