-- ==== Sys2Proof/Machine/State.lean ====
section
/-! DEFINITION. The machine's state (10_state.md): the register file, the program counter, the data memory and the
status, beside the launch parameters of 00_scope.md R5; the ten faults of R141; the reasons a step stops; reset. -/

namespace Sys2Proof.Machine

/-- What a general register holds: a 32-bit value, or the spec's own mark `Unwritten` (R14). The mark is for a launch
whose `REGS0` leaves the register out; at `State.reset` every register holds a value (log entry 1), and no
instruction ever sets the mark. -/
inductive RegCell where
  | value (v : Word)
  | unwritten
  deriving DecidableEq, Repr

/-- The closed list of faults (R141), each with the info the rule says is recorded. `pc` is the address of the
faulting instruction. A fault is the spec's exception: it sets `status` and nothing else (R140). -/
inductive Cause where
  /-- `Fetch`: `pc` is no multiple of 4; `a` is `pc`. -/
  | fetchMisaligned (a : Word)
  /-- `Fetch`: `pc` is aligned, outside the text region and not `TEXT_END`; `a` is `pc`. -/
  | fetchNotAdmitted (a : Word)
  /-- Decode: the fetched word `w` matches no row of R72. -/
  | reservedInstruction (pc w : Word)
  /-- A register read: register `i` was never written. -/
  | unwrittenRegisterRead (pc : Word) (i : RegNum)
  /-- `add`, `sub`, `addi`: signed overflow under the policy `fault`. -/
  | integerOverflow (pc : Word)
  /-- `lw`: the effective address `a` is no multiple of 4. -/
  | loadMisaligned (pc a : Word)
  /-- `sw`: the effective address `a` is no multiple of 4. -/
  | storeMisaligned (pc a : Word)
  /-- `lw`: `a` is aligned and not in `DATA_REGION`. -/
  | loadNotAdmitted (pc a : Word)
  /-- `sw`: `a` is aligned and not in `DATA_REGION`. -/
  | storeNotAdmitted (pc a : Word)
  /-- `lw`: `a` is admitted and no value stands there. -/
  | unwrittenMemoryRead (pc a : Word)
  deriving DecidableEq, Repr

/-- The status of the machine (R21). Only a running machine takes steps; `halted` is the one final status. -/
inductive Status where
  | running
  | halted
  | faulted (c : Cause)
  deriving DecidableEq, Repr

/-- Why a step answers no next state: the machine is not running (R21, R26: "in any other status there is no step").
Raised by `step` alone; no meaning raises one. Both are safe: the spec gives no step there either (log entry 8). -/
inductive Fault where
  /-- The run ended normally (R173 a). Raised by `step` at a halted machine; safe. -/
  | halted
  /-- The run ended in the fault `c` (R173 b). Raised by `step` at a faulted machine; safe. -/
  | faulted (c : Cause)
  deriving DecidableEq, Repr

/-- A step without a meaning. -/
inductive Refusal where
  /-- The instruction has no meaning in this model. Raised by no arm of `exec`: all 21 instructions are modelled. Safe. -/
  | notModelled (mnemonic : String)
  deriving DecidableEq, Repr

/-- The data memory (R23, R30): the bytes that hold a value, in rising order of address. An address not listed holds
no value (log entry 4). -/
abbrev Memory := List Host.Cell

/-- The state of the machine (10_state.md, head table), and the launch parameters its steps read (log entry 7). -/
structure State where
  /-- The 32 general registers (R10 to R14); read and written through `State.regCell` and `State.writeReg` alone. -/
  x : Vector RegCell 32
  /-- The program counter (R16). -/
  pc : Word
  /-- The data memory (R23). -/
  mem : Memory
  /-- Running, halted or faulted (R21). -/
  status : Status
  /-- The launch parameters (R5); no instruction changes them (R22). -/
  launch : Launch
  deriving DecidableEq, Repr

/-- The machine right after reset (R24): `pc` at the default `TEXT_BASE`, running, no memory word listed. Every
register holds 0: `x[0]` by R12, the others because the model's launch takes `REGS0` to give each of them 0
(DESIGN CHOICE, log entry 1). No program is placed (log entry 2). -/
def State.reset : State where
  x := Vector.replicate 32 (.value 0#32)
  pc := Config.defaultTextBase
  mem := []
  status := .running
  launch := Config.resetLaunch

end Sys2Proof.Machine
end

