-- ==== Sys2Proof/Machine/Memory.lean ====
section
/-! DEFINITION. The data memory as bytes in one canonical form, and words built from it in the byte order `ENDIAN`
(R30, R37). This is the one place where byte order is decided. -/

namespace Sys2Proof.Machine

/-- The byte at an address; none where nothing has been stored. -/
def Memory.readByte : Memory → Nat → Option Byte
  | [], _ => none
  | (k, v) :: rest, a => if k = a then some v else Memory.readByte rest a

/-- The memory with one byte stored; addresses stay in rising order. -/
def Memory.writeByte : Memory → Nat → Byte → Memory
  | [], a, b => [(a, b)]
  | (k, v) :: rest, a, b =>
    if a < k then (a, b) :: (k, v) :: rest
    else if a = k then (a, b) :: rest
    else (k, v) :: Memory.writeByte rest a b

/-- Every listed address lies above `lo`, and the addresses rise strictly. -/
def Memory.risesFrom : Nat → Memory → Bool
  | _, [] => true
  | lo, (k, _) :: rest => decide (lo ≤ k) && Memory.risesFrom (k + 1) rest

/-- The canonical form: strictly rising addresses, all inside the address space. An unlisted address holds no value, so
no entry can equal what one reads as. -/
def Memory.wf (m : Memory) : Bool := m.risesFrom 0 && m.all fun c => decide (c.1 < Config.addressCount)

/-- The byte of `v` that lies at offset `k` (0 to 3) from the word's address. -/
def byteOfWord (e : Endian) (v : Word) (k : Nat) : Byte :=
  match e with
  | .big => v.extractLsb' (8 * (3 - k)) 8
  | .little => v.extractLsb' (8 * k) 8

/-- The word whose bytes are `b0` (at the word's address) to `b3`. -/
def wordOfBytes (e : Endian) (b0 b1 b2 b3 : Byte) : Word :=
  match e with
  | .big => b0 ++ b1 ++ b2 ++ b3
  | .little => b3 ++ b2 ++ b1 ++ b0

/-- The word at address `a` (R30: the bytes `a` to `a+3`); none unless all four bytes hold a value (log entry 22). -/
def Memory.readWord (e : Endian) (m : Memory) (a : Nat) : Option Word :=
  match m.readByte a, m.readByte (a + 1), m.readByte (a + 2), m.readByte (a + 3) with
  | some b0, some b1, some b2, some b3 => some (wordOfBytes e b0 b1 b2 b3)
  | _, _, _, _ => none

/-- The memory with the word at address `a` replaced (R35). -/
def Memory.writeWord (e : Endian) (m : Memory) (a : Nat) (v : Word) : Memory :=
  (((m.writeByte a (byteOfWord e v 0)).writeByte (a + 1) (byteOfWord e v 1)).writeByte (a + 2)
    (byteOfWord e v 2)).writeByte (a + 3) (byteOfWord e v 3)

end Sys2Proof.Machine
end

