-- ==== Sys2Proof/Machine/Operands.lean ====
section
/-! DEFINITION. The operand forms (30_encoding.md section 2) and the addresses computed from them. -/

namespace Sys2Proof.Machine

/-- The sign-extended immediate of `addi`, `lw`, `sw`, `beq` and `bne` (R55). -/
def sext32 (imm : Imm) : Word := imm.signExtend 32

/-- The zero-extended immediate of `andi`, `ori` and `xori` (R56). -/
def zext32 (imm : Imm) : Word := imm.zeroExtend 32

/-- The upper immediate of `lui` (R57): `imm` above sixteen zeros. -/
def upperImm (imm : Imm) : Word := imm ++ 0#16

/-- The address of the instruction after the one at `pc`, modulo 2^32 (R17). -/
def nextPc (pc : Word) : Word := pc + 4#32

/-- The branch target address `BTA` (R58): a signed count of instructions from the one after the branch. -/
def branchTarget (pc : Word) (imm : Imm) : Word := nextPc pc + (sext32 imm <<< 2)

/-- The jump target address `JTA` (R59): the word address `addr` within the region of the instruction after the jump. -/
def jumpTarget (pc : Word) (addr : JumpField) : Word := (nextPc pc).extractLsb' 28 4 ++ addr ++ 0#2

/-- The effective address of `lw` and `sw` (R90): base plus displacement, modulo 2^32, with no overflow test. -/
def effectiveAddress (base : Word) (imm : Imm) : Word := base + sext32 imm

/-- The alignment test of R33 and R18: `a[1:0] = 0`. -/
def isAligned (a : Word) : Bool := a.extractLsb' 0 2 == 0#2

end Sys2Proof.Machine
end

