-- ==== Sys2Proof/Machine/Regions.lean ====
section
/-! DEFINITION. The three parts of the address space (R31): the text region, `DATA_REGION` and everything else. -/

namespace Sys2Proof

/-- `TEXT_END = TEXT_BASE + 4*NPROG` (R5). A natural number, because it may be 2^32, which no address equals (R173). -/
def Launch.textEnd (l : Launch) : Nat := l.textBase.toNat + 4 * l.prog.length

/-- The text region, the half-open range from `TEXT_BASE` to `TEXT_END` (R22). -/
def Launch.inText (l : Launch) (a : Nat) : Bool := decide (l.textBase.toNat ≤ a ∧ a < l.textEnd)

/-- The addresses of one region. -/
def Region.contains (r : Region) (a : Nat) : Bool := decide (r.base.toNat ≤ a ∧ a < r.base.toNat + 4 * r.words)

/-- `DATA_REGION` (R31): the word addresses of the launch's regions that lie outside the text region. Every member is
a multiple of 4 and none lies in the text, as R5 demands, whatever the list of regions is (log entry 17). -/
def Launch.inData (l : Launch) (a : Nat) : Bool :=
  decide (a % 4 = 0) && l.dataRegion.any (fun r => r.contains a) && !l.inText a

end Sys2Proof
end

