-- ==== Sys2Proof/Machine/Ops.lean ====
section
/-! DEFINITION. The pseudocode primitives of 00_scope.md R7 as operations over the state: register and memory access,
raising a fault, completing an instruction; and the instruction shapes several meanings share. -/

namespace Sys2Proof.Machine

/-- A computation that may `raise` a fault before it answers (R7, R8). -/
abbrev Checked (α : Type) := Except Cause α

/-! ## Registers and the program counter -/

/-- What register `r` holds; register 0 holds the value 0, always (R12). -/
def State.regCell (s : State) (r : RegNum) : RegCell := if r = 0#5 then .value 0#32 else s.x[r.toNat]'r.isLt

/-- `x[r]` (R7): the register's value, or the fault `UnwrittenRegisterRead` (R14). -/
def State.readReg (s : State) (r : RegNum) : Checked Word :=
  match s.regCell r with
  | .value v => .ok v
  | .unwritten => .error (.unwrittenRegisterRead s.pc r)

/-- `x[r] <- v` (R7); a write to register 0 has no effect (R13). -/
def State.writeReg (s : State) (r : RegNum) (v : Word) : State :=
  if r = 0#5 then s else { s with x := s.x.set r.toNat (.value v) r.isLt }

/-- `pc <- t` (R7). -/
def State.setPc (s : State) (t : Word) : State := { s with pc := t }

/-- `pc <- pc + 4`, the advance of an instruction that is no taken branch or jump (R17). -/
def State.advance (s : State) : State := s.setPc (nextPc s.pc)

/-- `x[r] <- v`, then the advance. -/
def State.writeResult (s : State) (r : RegNum) (v : Word) : State := (s.writeReg r v).advance

/-! ## Taking a fault, and the end of a run -/

/-- Taking an exception (R140): `status <- Faulted(F, info)` and nothing else. There is no trap entry, no handler and
no return from one (R144, R145). -/
def State.takeFault (s : State) (c : Cause) : State := { s with status := .faulted c }

/-- The normal end of a run (R173): `status <- Halted` and nothing else. -/
def State.halt (s : State) : State := { s with status := .halted }

/-- How an instruction's rule ends (R26): its writes happen, or the fault it raised is taken and nothing is written. -/
def State.complete (s : State) (r : Checked State) : Host.Outcome State Fault Refusal :=
  match r with
  | .ok t => .next t
  | .error c => .next (s.takeFault c)

/-! ## Memory -/

/-- `MemRead(a, 4)` (R34). -/
def State.memRead (s : State) (a : Word) : Checked Word :=
  if isAligned a = false then .error (.loadMisaligned s.pc a)
  else if s.launch.inData a.toNat = false then .error (.loadNotAdmitted s.pc a)
  else
    match s.mem.readWord s.launch.endian a.toNat with
    | none => .error (.unwrittenMemoryRead s.pc a)
    | some v => .ok v

/-- `MemWrite(a, 4, v)` (R35). -/
def State.memWrite (s : State) (a v : Word) : Checked State :=
  if isAligned a = false then .error (.storeMisaligned s.pc a)
  else if s.launch.inData a.toNat = false then .error (.storeNotAdmitted s.pc a)
  else .ok { s with mem := s.mem.writeWord s.launch.endian a.toNat v }

/-- `Fetch(a)` (R36): word number `(a - TEXT_BASE) / 4` of the program. -/
def State.fetch (s : State) (a : Word) : Checked Word :=
  if isAligned a = false then .error (.fetchMisaligned a)
  else if s.launch.inText a.toNat = false then .error (.fetchNotAdmitted a)
  else
    match s.launch.prog[(a.toNat - s.launch.textBase.toNat) / 4]? with
    | some w => .ok w
    | none => .error (.fetchNotAdmitted a)

/-- The step begins at `TEXT_END`, where a run ends normally (R26, R173). -/
def State.atTextEnd (s : State) : Bool := decide (s.pc.toNat = s.launch.textEnd)

/-! ## Shared instruction shapes -/

/-- The arithmetic law (R80): the exact result `S` narrowed to 32 bits, or `IntegerOverflow` under the policy `fault`. -/
def State.narrow (s : State) (S : Int) : Checked Word :=
  if signedOverflow S = true ∧ s.launch.overflow = .fault then .error (.integerOverflow s.pc) else .ok (wrap32 S)

/-- `x[rd] <- f(x[rs], x[rt])`: `rs` is read first, then `rt` (R15). `f` may raise. -/
def State.regReg (s : State) (rd rs rt : RegNum) (f : Word → Word → Checked Word) :
    Host.Outcome State Fault Refusal :=
  s.complete do
    let a ← s.readReg rs
    let b ← s.readReg rt
    let v ← f a b
    return s.writeResult rd v

/-- `x[rd] <- f(x[rs])`, for the forms with one source register. `f` may raise. -/
def State.regUnary (s : State) (rd rs : RegNum) (f : Word → Checked Word) : Host.Outcome State Fault Refusal :=
  s.complete do
    let a ← s.readReg rs
    let v ← f a
    return s.writeResult rd v

/-- A conditional branch (R125 to R127): both registers are read, then `pc` goes to the target or to the next
instruction. -/
def State.branchIf (s : State) (rs rt : RegNum) (imm : Imm) (taken : Word → Word → Bool) :
    Host.Outcome State Fault Refusal :=
  s.complete do
    let a ← s.readReg rs
    let b ← s.readReg rt
    return s.setPc (if taken a b then branchTarget s.pc imm else nextPc s.pc)

end Sys2Proof.Machine
end

