-- ==== Sys2Proof/Machine/Arithmetic.lean ====
section
/-! DEFINITION. The arithmetic instructions `add`, `sub`, `addi` (40_arithmetic.md). -/

namespace Sys2Proof.Machine

/-- `add rd, rs, rt` (R81). -/
def execAdd (rd rs rt : RegNum) (s : State) : Host.Outcome State Fault Refusal :=
  s.regReg rd rs rt fun a b => s.narrow (a.toInt + b.toInt)

/-- `sub rd, rs, rt` (R82). -/
def execSub (rd rs rt : RegNum) (s : State) : Host.Outcome State Fault Refusal :=
  s.regReg rd rs rt fun a b => s.narrow (a.toInt - b.toInt)

/-- `addi rt, rs, imm` (R83). -/
def execAddi (rt rs : RegNum) (imm : Imm) (s : State) : Host.Outcome State Fault Refusal :=
  s.regUnary rt rs fun a => s.narrow (a.toInt + (sext32 imm).toInt)

end Sys2Proof.Machine
end

