-- ==== Sys2Proof/Machine/BranchJump.lean ====
section
/-! DEFINITION. The control transfers `beq`, `bne`, `j`, `jr`, `jal` (45_branch_jump.md). There is no delay slot: the
target is the address of the very next instruction executed (R125). -/

namespace Sys2Proof.Machine

/-- `beq rs, rt, label` (R126). -/
def execBeq (rs rt : RegNum) (imm : Imm) (s : State) : Host.Outcome State Fault Refusal :=
  s.branchIf rs rt imm fun a b => a == b

/-- `bne rs, rt, label` (R127). -/
def execBne (rs rt : RegNum) (imm : Imm) (s : State) : Host.Outcome State Fault Refusal :=
  s.branchIf rs rt imm fun a b => a != b

/-- `j label` (R128). -/
def execJ (addr : JumpField) (s : State) : Host.Outcome State Fault Refusal :=
  .next (s.setPc (jumpTarget s.pc addr))

/-- `jr rs` (R129): any 32-bit value becomes the pc; a bad one faults at the next fetch (R125). -/
def execJr (rs : RegNum) (s : State) : Host.Outcome State Fault Refusal :=
  s.complete do
    let target ← s.readReg rs
    return s.setPc target

/-- `jal label` (R130): the link in register 31 is the address of the instruction after the `jal`. -/
def execJal (addr : JumpField) (s : State) : Host.Outcome State Fault Refusal :=
  .next ((s.writeReg 31#5 (nextPc s.pc)).setPc (jumpTarget s.pc addr))

end Sys2Proof.Machine
end

