-- ==== Sys2Proof/Machine/Constants.lean ====
section
/-! DEFINITION. The constant-building instruction `lui` (44_constants.md). -/

namespace Sys2Proof.Machine

/-- `lui rt, imm` (R120): it reads no register and cannot fault. -/
def execLui (rt : RegNum) (imm : Imm) (s : State) : Host.Outcome State Fault Refusal :=
  .next (s.writeResult rt (upperImm imm))

end Sys2Proof.Machine
end

