-- ==== Sys2Proof/Machine/LoadStore.lean ====
section
/-! DEFINITION. The load and store instructions `lw`, `sw` (41_load_store.md). -/

namespace Sys2Proof.Machine

/-- `lw rt, imm(rs)` (R91). -/
def execLw (rt rs : RegNum) (imm : Imm) (s : State) : Host.Outcome State Fault Refusal :=
  s.regUnary rt rs fun base => s.memRead (effectiveAddress base imm)

/-- `sw rt, imm(rs)` (R92): the base is read first, then the value stored. -/
def execSw (rt rs : RegNum) (imm : Imm) (s : State) : Host.Outcome State Fault Refusal :=
  s.complete do
    let base ← s.readReg rs
    let v ← s.readReg rt
    let t ← s.memWrite (effectiveAddress base imm) v
    return t.advance

end Sys2Proof.Machine
end

