-- ==== Sys2Proof/Machine/Logical.lean ====
section
/-! DEFINITION. The logical instructions `and`, `or`, `xor`, `nor`, `andi`, `ori`, `xori` (42_logical.md). -/

namespace Sys2Proof.Machine

/-- `and rd, rs, rt` (R101). -/
def execAnd (rd rs rt : RegNum) (s : State) : Host.Outcome State Fault Refusal :=
  s.regReg rd rs rt fun a b => .ok (a &&& b)

/-- `or rd, rs, rt` (R102). -/
def execOr (rd rs rt : RegNum) (s : State) : Host.Outcome State Fault Refusal :=
  s.regReg rd rs rt fun a b => .ok (a ||| b)

/-- `xor rd, rs, rt` (R103). -/
def execXor (rd rs rt : RegNum) (s : State) : Host.Outcome State Fault Refusal :=
  s.regReg rd rs rt fun a b => .ok (a ^^^ b)

/-- `nor rd, rs, rt` (R104). -/
def execNor (rd rs rt : RegNum) (s : State) : Host.Outcome State Fault Refusal :=
  s.regReg rd rs rt fun a b => .ok (~~~(a ||| b))

/-- `andi rt, rs, imm` (R105). -/
def execAndi (rt rs : RegNum) (imm : Imm) (s : State) : Host.Outcome State Fault Refusal :=
  s.regUnary rt rs fun a => .ok (a &&& zext32 imm)

/-- `ori rt, rs, imm` (R106). -/
def execOri (rt rs : RegNum) (imm : Imm) (s : State) : Host.Outcome State Fault Refusal :=
  s.regUnary rt rs fun a => .ok (a ||| zext32 imm)

/-- `xori rt, rs, imm` (R107). -/
def execXori (rt rs : RegNum) (imm : Imm) (s : State) : Host.Outcome State Fault Refusal :=
  s.regUnary rt rs fun a => .ok (a ^^^ zext32 imm)

end Sys2Proof.Machine
end

