-- ==== Sys2Proof/Machine/Shift.lean ====
section
/-! DEFINITION. The shift instructions `sll`, `srl`, `sra` (43_shift.md). -/

namespace Sys2Proof.Machine

/-- `sll rd, rt, shamt` (R111). -/
def execSll (rd rt : RegNum) (shamt : Shamt) (s : State) : Host.Outcome State Fault Refusal :=
  s.regUnary rd rt fun a => .ok (a <<< shamt.toNat)

/-- `srl rd, rt, shamt` (R112). -/
def execSrl (rd rt : RegNum) (shamt : Shamt) (s : State) : Host.Outcome State Fault Refusal :=
  s.regUnary rd rt fun a => .ok (a >>> shamt.toNat)

/-- `sra rd, rt, shamt` (R113). -/
def execSra (rd rt : RegNum) (shamt : Shamt) (s : State) : Host.Outcome State Fault Refusal :=
  s.regUnary rd rt fun a => .ok (a.sshiftRight shamt.toNat)

end Sys2Proof.Machine
end

