-- ==== Sys2Proof/Syntax.lean ====
section
/-! DEFINITION. The 21 instructions (R3), one constructor per row of spec/opcode_table.json. A constructor's operands
are the fields its row leaves free, each at its exact width (R51 to R53), so every term is an instruction some word
encodes. Operands stand in the order of the assembly form (R68), a base register before its displacement. -/

namespace Sys2Proof

/-- An instruction of the DDCA Ch.6 MIPS subset. -/
inductive Instr where
  /-- Shift left logical (R111). -/
  | sll (rd rt : RegNum) (shamt : Shamt)
  /-- Shift right logical (R112). -/
  | srl (rd rt : RegNum) (shamt : Shamt)
  /-- Shift right arithmetic (R113). -/
  | sra (rd rt : RegNum) (shamt : Shamt)
  /-- Jump register (R129). -/
  | jr (rs : RegNum)
  /-- Add two registers (R81). -/
  | add (rd rs rt : RegNum)
  /-- Subtract `rt` from `rs` (R82). -/
  | sub (rd rs rt : RegNum)
  /-- Bitwise AND of two registers (R101). -/
  | and (rd rs rt : RegNum)
  /-- Bitwise OR of two registers (R102). -/
  | or (rd rs rt : RegNum)
  /-- Bitwise exclusive OR of two registers (R103). -/
  | xor (rd rs rt : RegNum)
  /-- Bitwise NOT of the OR of two registers (R104). -/
  | nor (rd rs rt : RegNum)
  /-- Jump (R128). -/
  | j (addr : JumpField)
  /-- Jump and link (R130). -/
  | jal (addr : JumpField)
  /-- Branch if equal (R126). -/
  | beq (rs rt : RegNum) (imm : Imm)
  /-- Branch if not equal (R127). -/
  | bne (rs rt : RegNum) (imm : Imm)
  /-- Add a sign-extended immediate (R83). -/
  | addi (rt rs : RegNum) (imm : Imm)
  /-- Bitwise AND with a zero-extended immediate (R105). -/
  | andi (rt rs : RegNum) (imm : Imm)
  /-- Bitwise OR with a zero-extended immediate (R106). -/
  | ori (rt rs : RegNum) (imm : Imm)
  /-- Bitwise exclusive OR with a zero-extended immediate (R107). -/
  | xori (rt rs : RegNum) (imm : Imm)
  /-- Load upper immediate (R120). -/
  | lui (rt : RegNum) (imm : Imm)
  /-- Load word from `imm(rs)` (R91). -/
  | lw (rt rs : RegNum) (imm : Imm)
  /-- Store word to `imm(rs)` (R92). -/
  | sw (rt rs : RegNum) (imm : Imm)
  deriving DecidableEq, Repr

end Sys2Proof
end

