-- ==== Sys2Proof/Decode.lean ====
section
/-! DEFINITION. Decoding and encoding (30_encoding.md): the fields of a word, the decoding procedure of R54 over the
opcode maps R61 and R62 with the fixed fields of R63, the decoder table of R72, and the encoder. -/

namespace Sys2Proof

/-- Bits 31:26 (R51 to R53). -/
def opField (w : Word) : BitVec 6 := w.extractLsb' 26 6

/-- Bits 25:21 (R51, R52). -/
def rsField (w : Word) : RegNum := w.extractLsb' 21 5

/-- Bits 20:16 (R51, R52). -/
def rtField (w : Word) : RegNum := w.extractLsb' 16 5

/-- Bits 15:11 (R51). -/
def rdField (w : Word) : RegNum := w.extractLsb' 11 5

/-- Bits 10:6 (R51). -/
def shamtField (w : Word) : Shamt := w.extractLsb' 6 5

/-- Bits 5:0 (R51). -/
def functField (w : Word) : BitVec 6 := w.extractLsb' 0 6

/-- Bits 15:0 (R52). -/
def immField (w : Word) : Imm := w.extractLsb' 0 16

/-- Bits 25:0 (R53). -/
def addrField (w : Word) : JumpField := w.extractLsb' 0 26

/-- Why a word is a reserved encoding: the cases (a), (b) and (c) of R64. -/
inductive DecodeError where
  /-- (a) `op` is not in the opcode map (R61). -/
  | unlistedOp
  /-- (b) `op` is 0 and `funct` is not in the function map (R62). -/
  | unlistedFunct
  /-- (c) a field that must be 0 is not (R63). -/
  | fixedField
  deriving DecidableEq, Repr

/-- The fixed-field test of R63: `i` if the field is zero, else a reserved encoding. -/
def ifFixed (fixed : Bool) (i : Instr) : Except DecodeError Instr := if fixed then .ok i else .error .fixedField

/-- An R-type word: the function map (R62) and the fixed fields of the register forms (R63 a to c). -/
def decodeR (w : Word) : Except DecodeError Instr :=
  match functField w with
  | 0#6 => ifFixed (rsField w == 0#5) (.sll (rdField w) (rtField w) (shamtField w))
  | 2#6 => ifFixed (rsField w == 0#5) (.srl (rdField w) (rtField w) (shamtField w))
  | 3#6 => ifFixed (rsField w == 0#5) (.sra (rdField w) (rtField w) (shamtField w))
  | 8#6 => ifFixed (rtField w == 0#5 && rdField w == 0#5 && shamtField w == 0#5) (.jr (rsField w))
  | 32#6 => ifFixed (shamtField w == 0#5) (.add (rdField w) (rsField w) (rtField w))
  | 34#6 => ifFixed (shamtField w == 0#5) (.sub (rdField w) (rsField w) (rtField w))
  | 36#6 => ifFixed (shamtField w == 0#5) (.and (rdField w) (rsField w) (rtField w))
  | 37#6 => ifFixed (shamtField w == 0#5) (.or (rdField w) (rsField w) (rtField w))
  | 38#6 => ifFixed (shamtField w == 0#5) (.xor (rdField w) (rsField w) (rtField w))
  | 39#6 => ifFixed (shamtField w == 0#5) (.nor (rdField w) (rsField w) (rtField w))
  | _ => .error .unlistedFunct

/-- The decoding procedure (R54): the opcode tells how to parse the rest of the word (R61). Total on every word;
a reserved encoding (R64) is rejected by name. -/
def decode (w : Word) : Except DecodeError Instr :=
  match opField w with
  | 0#6 => decodeR w
  | 2#6 => .ok (.j (addrField w))
  | 3#6 => .ok (.jal (addrField w))
  | 4#6 => .ok (.beq (rsField w) (rtField w) (immField w))
  | 5#6 => .ok (.bne (rsField w) (rtField w) (immField w))
  | 8#6 => .ok (.addi (rtField w) (rsField w) (immField w))
  | 12#6 => .ok (.andi (rtField w) (rsField w) (immField w))
  | 13#6 => .ok (.ori (rtField w) (rsField w) (immField w))
  | 14#6 => .ok (.xori (rtField w) (rsField w) (immField w))
  | 15#6 => ifFixed (rsField w == 0#5) (.lui (rtField w) (immField w))
  | 35#6 => .ok (.lw (rtField w) (rsField w) (immField w))
  | 43#6 => .ok (.sw (rtField w) (rsField w) (immField w))
  | _ => .error .unlistedOp

/-- The word the host numbers as spec/opcode_table.json does: its low `nbits` bits, and zeros above. -/
def tableWord (nbits w : Nat) : Word := BitVec.ofNat 32 (w % 2 ^ nbits)

/-- The instruction the decoder reads from the table word `w` of `nbits` bits; none for a reserved encoding. -/
def decodeTableWord (nbits w : Nat) : Option Instr :=
  match decode (tableWord nbits w) with
  | .ok i => some i
  | .error _ => none

/-- An R-type word from its fields (R51); `op` is 0. -/
def rWord (rs rt rd : RegNum) (shamt : Shamt) (funct : BitVec 6) : Word := 0#6 ++ rs ++ rt ++ rd ++ shamt ++ funct

/-- An I-type word from its fields (R52). -/
def iWord (op : BitVec 6) (rs rt : RegNum) (imm : Imm) : Word := op ++ rs ++ rt ++ imm

/-- A J-type word from its fields (R53). -/
def jWord (op : BitVec 6) (addr : JumpField) : Word := op ++ addr

/-- The word of an instruction, from the encoding tables R61 to R63 and the field placement of R68. -/
def encode : Instr → Word
  | .sll rd rt shamt => rWord 0#5 rt rd shamt 0#6
  | .srl rd rt shamt => rWord 0#5 rt rd shamt 2#6
  | .sra rd rt shamt => rWord 0#5 rt rd shamt 3#6
  | .jr rs => rWord rs 0#5 0#5 0#5 8#6
  | .add rd rs rt => rWord rs rt rd 0#5 32#6
  | .sub rd rs rt => rWord rs rt rd 0#5 34#6
  | .and rd rs rt => rWord rs rt rd 0#5 36#6
  | .or rd rs rt => rWord rs rt rd 0#5 37#6
  | .xor rd rs rt => rWord rs rt rd 0#5 38#6
  | .nor rd rs rt => rWord rs rt rd 0#5 39#6
  | .j addr => jWord 2#6 addr
  | .jal addr => jWord 3#6 addr
  | .beq rs rt imm => iWord 4#6 rs rt imm
  | .bne rs rt imm => iWord 5#6 rs rt imm
  | .addi rt rs imm => iWord 8#6 rs rt imm
  | .andi rt rs imm => iWord 12#6 rs rt imm
  | .ori rt rs imm => iWord 13#6 rs rt imm
  | .xori rt rs imm => iWord 14#6 rs rt imm
  | .lui rt imm => iWord 15#6 0#5 rt imm
  | .lw rt rs imm => iWord 35#6 rs rt imm
  | .sw rt rs imm => iWord 43#6 rs rt imm

/-- The mnemonic of an instruction, as spec/opcode_table.json spells it. -/
def Instr.mnemonic : Instr → String
  | .sll _ _ _ => "sll"
  | .srl _ _ _ => "srl"
  | .sra _ _ _ => "sra"
  | .jr _ => "jr"
  | .add _ _ _ => "add"
  | .sub _ _ _ => "sub"
  | .and _ _ _ => "and"
  | .or _ _ _ => "or"
  | .xor _ _ _ => "xor"
  | .nor _ _ _ => "nor"
  | .j _ => "j"
  | .jal _ => "jal"
  | .beq _ _ _ => "beq"
  | .bne _ _ _ => "bne"
  | .addi _ _ _ => "addi"
  | .andi _ _ _ => "andi"
  | .ori _ _ _ => "ori"
  | .xori _ _ _ => "xori"
  | .lui _ _ => "lui"
  | .lw _ _ _ => "lw"
  | .sw _ _ _ => "sw"

/-- A row of the decoder table of R72: `w` is the row's instruction exactly when `w` under `mask` is `pattern`. -/
structure DecodeRow where
  mnemonic : String
  mask : Word
  pattern : Word
  deriving DecidableEq, Repr

/-- A word matches a row (R72). -/
def DecodeRow.matchesWord (r : DecodeRow) (w : Word) : Bool := w &&& r.mask == r.pattern

/-- The decoder table of R72 (the mask and match columns of spec/opcode_table.json). It does not drive `decode`,
which follows R54; that the two agree is stated as an obligation. -/
def decoderTable : List DecodeRow :=
  [ ⟨"sll", 0xFFE0003F#32, 0x00000000#32⟩,
    ⟨"srl", 0xFFE0003F#32, 0x00000002#32⟩,
    ⟨"sra", 0xFFE0003F#32, 0x00000003#32⟩,
    ⟨"jr", 0xFC1FFFFF#32, 0x00000008#32⟩,
    ⟨"add", 0xFC0007FF#32, 0x00000020#32⟩,
    ⟨"sub", 0xFC0007FF#32, 0x00000022#32⟩,
    ⟨"and", 0xFC0007FF#32, 0x00000024#32⟩,
    ⟨"or", 0xFC0007FF#32, 0x00000025#32⟩,
    ⟨"xor", 0xFC0007FF#32, 0x00000026#32⟩,
    ⟨"nor", 0xFC0007FF#32, 0x00000027#32⟩,
    ⟨"j", 0xFC000000#32, 0x08000000#32⟩,
    ⟨"jal", 0xFC000000#32, 0x0C000000#32⟩,
    ⟨"beq", 0xFC000000#32, 0x10000000#32⟩,
    ⟨"bne", 0xFC000000#32, 0x14000000#32⟩,
    ⟨"addi", 0xFC000000#32, 0x20000000#32⟩,
    ⟨"andi", 0xFC000000#32, 0x30000000#32⟩,
    ⟨"ori", 0xFC000000#32, 0x34000000#32⟩,
    ⟨"xori", 0xFC000000#32, 0x38000000#32⟩,
    ⟨"lui", 0xFFE00000#32, 0x3C000000#32⟩,
    ⟨"lw", 0xFC000000#32, 0x8C000000#32⟩,
    ⟨"sw", 0xFC000000#32, 0xAC000000#32⟩ ]

end Sys2Proof
end

