-- ==== Sys2Proof/Machine/Fetch.lean ====
section
/-! DEFINITION. Fetching and decoding the next instruction (R26), and placing one where the next fetch reads it. -/

namespace Sys2Proof.Machine

/-- The first two lines of a step that does not halt (R26): fetch, then decode; either may raise. -/
def State.nextInstr (s : State) : Checked Instr := do
  let w ← s.fetch s.pc
  match decode w with
  | .ok i => return i
  | .error _ => throw (.reservedInstruction s.pc w)

/-- The state with the word `w` placed where the next step fetches it. If `pc` is an address of the text, the program's
word there is replaced. Otherwise the program becomes the one word `w` at `pc` (made a multiple of 4). A stopped
machine is set running, because no other status fetches. It stands for the host's loading of a program (R170;
log entries 2 and 25). -/
def State.placeWord (s : State) (w : Word) : State :=
  if isAligned s.pc && s.launch.inText s.pc.toNat then
    { s with
      status := .running
      launch := { s.launch with
        prog := s.launch.prog.set ((s.pc.toNat - s.launch.textBase.toNat) / 4) w } }
  else
    let base := s.pc &&& 0xFFFFFFFC#32
    { s with pc := base, status := .running, launch := { s.launch with textBase := base, prog := [w] } }

end Sys2Proof.Machine
end

