-- ==== Sys2Proof/Machine/Step.lean ====
section
/-! DEFINITION. One step of the machine (R26), and the host's placing of an instruction. -/

namespace Sys2Proof.Machine

/-- One step (R26). A running machine halts at `TEXT_END`, or takes the fault its fetch or decode raises, or executes
the instruction; a machine that is not running takes no step (R21). -/
def step (s : State) : Host.Outcome State Fault Refusal :=
  match s.status with
  | .halted => .fault .halted
  | .faulted c => .fault (.faulted c)
  | .running =>
    if s.atTextEnd then .next s.halt
    else
      match s.nextInstr with
      | .error c => .next (s.takeFault c)
      | .ok i => exec i s

/-- `s` with the table word `w` of `nbits` bits placed where the next step fetches. -/
def State.withFetchWord (s : State) (nbits w : Nat) : State := s.placeWord (tableWord nbits w)

end Sys2Proof.Machine
end

