-- ==== Sys2Proof/WellFormed.lean ====
section
/-! DEFINITION. What is well formed: a launch (R170) and the numbers an assembler accepts for an operand (R69). An
instruction needs no check: the types of its fields hold exactly the values its encoding admits (R51 to R53). -/

namespace Sys2Proof

/-- `TEXT_BASE` is a multiple of 4 (R5, R170). -/
def Launch.textAligned (l : Launch) : Bool := decide (l.textBase.toNat % 4 = 0)

/-- `TEXT_BASE + 4*NPROG` is at most 2^32 (R5, R170). -/
def Launch.textFits (l : Launch) : Bool := decide (l.textEnd ≤ Config.addressCount)

/-- Every region of data words starts at a multiple of 4 (R170). -/
def Launch.dataAligned (l : Launch) : Bool := l.dataRegion.all fun r => decide (r.base.toNat % 4 = 0)

/-- Every region of data words lies inside the address space (R30). -/
def Launch.dataFits (l : Launch) : Bool :=
  l.dataRegion.all fun r => decide (r.base.toNat + 4 * r.words ≤ Config.addressCount)

/-- The parameters of a run are well formed (R170). That `DATA_REGION` lies outside the text is no check here: it
holds by `Launch.inData`'s definition. -/
def Launch.wf (l : Launch) : Bool := l.textAligned && l.textFits && l.dataAligned && l.dataFits

/-- `REGS0` is a partial map on 1..31 (R5, R170): no register is given twice, and register 0 is not given. -/
def regs0Wf (regs0 : List (RegNum × Word)) : Bool :=
  decide (regs0.map Prod.fst).Nodup && regs0.all fun p => decide (p.1 ≠ 0)

/-- `MEM0` is a partial map on `DATA_REGION` (R5, R170): no word is given twice, and every word is admitted. -/
def mem0Wf (l : Launch) (mem0 : List (Word × Word)) : Bool :=
  decide (mem0.map Prod.fst).Nodup && mem0.all fun p => l.inData p.1.toNat

/-- The immediates `addi`, `lw` and `sw` accept (R69). -/
def signedImmOk (n : Int) : Bool := decide (-32768 ≤ n ∧ n ≤ 32767)

/-- The immediates `andi`, `ori`, `xori` and `lui` accept (R69). -/
def unsignedImmOk (n : Int) : Bool := decide (0 ≤ n ∧ n ≤ 65535)

/-- The amounts a shift accepts (R69). -/
def shamtOk (n : Int) : Bool := decide (0 ≤ n ∧ n ≤ 31)

end Sys2Proof
end

