-- ==== Sys2Proof/Machine/Assembler.lean ====
section
/-! DEFINITION. The assembler of 30_encoding.md section 5: register names (R11), statement syntax (R67), operand order
(R68), immediate ranges (R69), label resolution (R70), and no pseudo-instruction (R71). It is a tool beside the machine:
no step uses it. What the source leaves open of the syntax is log entry 23. Text is a list of characters, so that
Lean's kernel can run the assembler. -/

namespace Sys2Proof.Machine

/-- Why the assembler refuses a text (R67, R69 to R71; U15): it never truncates and never guesses. -/
inductive AsmError where
  /-- A line that is no label, statement or comment (R67). -/
  | badLine
  /-- A label that is no name, or is a reserved word (R67). -/
  | badLabel
  /-- A name that labels two places (log entry 23). -/
  | duplicateLabel
  /-- A word that is none of the 21 mnemonics: there are no pseudo-instructions and no directives (R71). -/
  | unknownMnemonic
  /-- An operand that is no register, number, memory operand or name (R67). -/
  | badOperand
  /-- Operands that are not those of the mnemonic's form (R68). -/
  | operandForm
  /-- An immediate or a shift amount outside the range its instruction accepts (R69). -/
  | immediateRange
  /-- A label no line defines. -/
  | undefinedLabel
  /-- A label the instruction cannot reach (R70). -/
  | targetRange
  deriving DecidableEq, Repr

/-- The register names (R11): the machine sees only the numbers. -/
def registerNames : List (List Char × RegNum) :=
  [("0".toList, 0#5), ("zero".toList, 0#5), ("at".toList, 1#5), ("v0".toList, 2#5), ("v1".toList, 3#5),
    ("a0".toList, 4#5), ("a1".toList, 5#5), ("a2".toList, 6#5), ("a3".toList, 7#5)] ++
  [("t0".toList, 8#5), ("t1".toList, 9#5), ("t2".toList, 10#5), ("t3".toList, 11#5), ("t4".toList, 12#5),
    ("t5".toList, 13#5), ("t6".toList, 14#5), ("t7".toList, 15#5)] ++
  [("s0".toList, 16#5), ("s1".toList, 17#5), ("s2".toList, 18#5), ("s3".toList, 19#5), ("s4".toList, 20#5),
    ("s5".toList, 21#5), ("s6".toList, 22#5), ("s7".toList, 23#5)] ++
  [("t8".toList, 24#5), ("t9".toList, 25#5), ("k0".toList, 26#5), ("k1".toList, 27#5), ("gp".toList, 28#5),
    ("sp".toList, 29#5), ("fp".toList, 30#5), ("ra".toList, 31#5)]

/-- An operand as written (R67). -/
inductive Operand where
  /-- `$` and a register name. -/
  | reg (r : RegNum)
  /-- A numeral. -/
  | imm (n : Int)
  /-- `imm(register)`. -/
  | mem (n : Int) (base : RegNum)
  /-- A label's name. -/
  | label (name : List Char)
  deriving DecidableEq, Repr

/-- The assembly forms (R68): which operands a mnemonic takes, and the instruction they make. -/
inductive Form where
  /-- `rd, rs, rt` -/
  | rdRsRt (mk : RegNum → RegNum → RegNum → Instr)
  /-- `rd, rt, shamt` -/
  | rdRtShamt (mk : RegNum → RegNum → Shamt → Instr)
  /-- `rs` -/
  | rs (mk : RegNum → Instr)
  /-- `rt, rs, imm`, the immediate signed -/
  | rtRsSigned (mk : RegNum → RegNum → Imm → Instr)
  /-- `rt, rs, imm`, the immediate unsigned -/
  | rtRsUnsigned (mk : RegNum → RegNum → Imm → Instr)
  /-- `rt, imm` -/
  | rtUnsigned (mk : RegNum → Imm → Instr)
  /-- `rt, imm(rs)` -/
  | rtMem (mk : RegNum → RegNum → Imm → Instr)
  /-- `rs, rt, label` -/
  | rsRtLabel (mk : RegNum → RegNum → Imm → Instr)
  /-- `label` -/
  | label (mk : JumpField → Instr)

/-- The form of each of the 21 mnemonics (R68). -/
def mnemonicForms : List (List Char × Form) :=
  [("add".toList, .rdRsRt .add), ("sub".toList, .rdRsRt .sub), ("and".toList, .rdRsRt .and),
    ("or".toList, .rdRsRt .or), ("xor".toList, .rdRsRt .xor), ("nor".toList, .rdRsRt .nor)] ++
  [("sll".toList, .rdRtShamt .sll), ("srl".toList, .rdRtShamt .srl), ("sra".toList, .rdRtShamt .sra),
    ("jr".toList, .rs .jr), ("addi".toList, .rtRsSigned .addi)] ++
  [("andi".toList, .rtRsUnsigned .andi), ("ori".toList, .rtRsUnsigned .ori), ("xori".toList, .rtRsUnsigned .xori),
    ("lui".toList, .rtUnsigned .lui), ("lw".toList, .rtMem .lw), ("sw".toList, .rtMem .sw)] ++
  [("beq".toList, .rsRtLabel .beq), ("bne".toList, .rsRtLabel .bne), ("j".toList, .label .j), ("jal".toList, .label .jal)]

/-! ## Characters to operands (R67) -/

/-- White space between the parts of a line (log entry 23). -/
def isBlank (c : Char) : Bool := c == ' ' || c == '\t'

/-- The text without white space at its two ends. -/
def trimBlanks (t : List Char) : List Char := ((t.dropWhile isBlank).reverse.dropWhile isBlank).reverse

/-- The text cut at the first `c`: what stands before it, and what stands after it if there is one. -/
def cutAt (c : Char) : List Char → List Char × Option (List Char)
  | [] => ([], none)
  | d :: rest =>
    if d = c then ([], some rest)
    else
      let (before, after) := cutAt c rest
      (d :: before, after)

/-- The pieces of a text between the commas. -/
def splitCommas : List Char → List (List Char)
  | [] => [[]]
  | c :: rest =>
    if c = ',' then [] :: splitCommas rest
    else
      match splitCommas rest with
      | [] => [[c]]
      | piece :: pieces => (c :: piece) :: pieces

/-- The value of a digit in either case; none for a character that is no hexadecimal digit. -/
def digitValue (c : Char) : Option Nat :=
  if '0' ≤ c ∧ c ≤ '9' then some (c.toNat - '0'.toNat)
  else if 'a' ≤ c ∧ c ≤ 'f' then some (c.toNat - 'a'.toNat + 10)
  else if 'A' ≤ c ∧ c ≤ 'F' then some (c.toNat - 'A'.toNat + 10)
  else none

/-- The value of the digits `t` in the given base, with `acc` the value of the digits before them. -/
def digitsValue (base : Nat) : Nat → List Char → Option Nat
  | acc, [] => some acc
  | acc, c :: rest =>
    match digitValue c with
    | some d => if d < base then digitsValue base (acc * base + d) rest else none
    | none => none

/-- A numeral (R67): decimal with an optional minus sign, or `0x` and hexadecimal digits, which is never negative (R69). -/
def parseNumber : List Char → Option Int
  | [] => none
  | '0' :: 'x' :: d :: rest => (digitsValue 16 0 (d :: rest)).map Int.ofNat
  | '-' :: d :: rest => (digitsValue 10 0 (d :: rest)).map fun n => -(Int.ofNat n)
  | d :: rest => (digitsValue 10 0 (d :: rest)).map Int.ofNat

/-- A register operand: `$` and a name of R11, in the letter case R11 writes it. That another case is refused is the
model's choice (DESIGN CHOICE, log entry 23): R67 says that the source gives no rule for case. -/
def parseReg : List Char → Option RegNum
  | '$' :: name => registerNames.lookup name
  | _ => none

/-- The first character of a name (log entry 23). -/
def nameStart (c : Char) : Bool := c.isAlpha || c == '_'

/-- A label's name (R67): a name that is no reserved word, the reserved words being the mnemonics. Names that differ in
letter case are two names (DESIGN CHOICE, log entry 23). -/
def labelOk (name : List Char) : Bool :=
  match name with
  | [] => false
  | c :: rest =>
    nameStart c && rest.all (fun d => nameStart d || d.isDigit) && !(mnemonicForms.map Prod.fst).contains name

/-- One operand (R67). -/
def parseOperand (t : List Char) : Except AsmError Operand :=
  match parseReg t, parseNumber t, cutAt '(' t with
  | some r, _, _ => .ok (.reg r)
  | none, some n, _ => .ok (.imm n)
  | none, none, (disp, some inside) =>
    match parseNumber disp, cutAt ')' inside with
    | some n, (base, some []) =>
      match parseReg base with
      | some r => .ok (.mem n r)
      | none => .error .badOperand
    | _, _ => .error .badOperand
  | none, none, (_, none) => if labelOk t then .ok (.label t) else .error .badOperand

/-- The operands of a statement, between its commas. -/
def parseOperands : List (List Char) → Except AsmError (List Operand)
  | [] => .ok []
  | t :: rest => do
    let o ← parseOperand (trimBlanks t)
    let os ← parseOperands rest
    return o :: os

/-- A statement: a mnemonic's form and its operands. -/
abbrev Stmt := Form × List Operand

/-- A statement (R67): a mnemonic in lower case, then its operands separated by commas. -/
def parseStmt (t : List Char) : Except AsmError Stmt :=
  match mnemonicForms.lookup (t.takeWhile fun c => !isBlank c) with
  | none => .error .unknownMnemonic
  | some f => do
    let os ← parseOperands (splitCommas (t.dropWhile fun c => !isBlank c))
    return (f, os)

/-- A line (R67): an optional label and its colon, an optional statement, an optional comment. -/
def parseLine (line : List Char) : Except AsmError (Option (List Char) × Option Stmt) :=
  let code := trimBlanks (cutAt '#' line).1
  let stmtOf (t : List Char) : Except AsmError (Option Stmt) :=
    match trimBlanks t with
    | [] => .ok none
    | c :: rest => (parseStmt (c :: rest)).map some
  match cutAt ':' code with
  | (_, none) => (stmtOf code).map fun st => (none, st)
  | (name, some rest) =>
    if labelOk name then
      if rest.contains ':' then .error .badLine else (stmtOf rest).map fun st => (some name, st)
    else .error .badLabel

/-- All lines of a text. -/
def parseLines : List (List Char) → Except AsmError (List (Option (List Char) × Option Stmt))
  | [] => .ok []
  | l :: rest => do
    let p ← parseLine l
    let ps ← parseLines rest
    return p :: ps

/-! ## Labels (R67, R70) -/

/-- The labels and the addresses they name, the next statement standing at `here`: a label names the next instruction
after it, or `TEXT_END` if none follows (R67). -/
def labelTable : Nat → List (Option (List Char) × Option Stmt) → List (List Char × Nat)
  | _, [] => []
  | here, (name, st) :: rest =>
    let later := labelTable (if st.isSome then here + 4 else here) rest
    match name with
    | some l => (l, here) :: later
    | none => later

/-- `imm` of a branch at `P` to `L` (R70): accepted if `L - (P + 4)` is a multiple of 4 in range. -/
def branchField (P L : Word) : Option Imm :=
  let d : Int := (L.toNat : Int) - ((P.toNat : Int) + 4)
  if d % 4 = 0 ∧ -131072 ≤ d ∧ d ≤ 131068 then some (BitVec.ofInt 16 (d / 4)) else none

/-- `addr` of a jump at `P` to `L` (R70): accepted if `L` is aligned and in the region of `P + 4`. -/
def jumpFieldOf (P L : Word) : Option JumpField :=
  if L.extractLsb' 0 2 = 0#2 ∧ L.extractLsb' 28 4 = (nextPc P).extractLsb' 28 4 then some (L.extractLsb' 2 26) else none

/-- The address a name stands for; it must be an address (`TEXT_END` may be 2^32, R5). -/
def labelAddress (labels : List (List Char × Nat)) (name : List Char) : Except AsmError Word :=
  match labels.lookup name with
  | none => .error .undefinedLabel
  | some a => if a < Config.addressCount then .ok (BitVec.ofNat 32 a) else .error .targetRange

/-! ## Statements to instructions (R68 to R70) -/

/-- `a` if `ok`, else the refusal `e`. -/
def accept {α : Type} (ok : Bool) (e : AsmError) (a : α) : Except AsmError α := if ok then .ok a else .error e

/-- The value an option holds, else the refusal `e`. -/
def orRefuse {α : Type} (e : AsmError) : Option α → Except AsmError α
  | some a => .ok a
  | none => .error e

/-- The instruction of a statement at address `P`. -/
def assembleStmt (labels : List (List Char × Nat)) (P : Word) : Stmt → Except AsmError Instr
  | (.rdRsRt mk, [.reg rd, .reg rs, .reg rt]) => .ok (mk rd rs rt)
  | (.rdRtShamt mk, [.reg rd, .reg rt, .imm n]) => accept (shamtOk n) .immediateRange (mk rd rt (BitVec.ofInt 5 n))
  | (.rs mk, [.reg rs]) => .ok (mk rs)
  | (.rtRsSigned mk, [.reg rt, .reg rs, .imm n]) => accept (signedImmOk n) .immediateRange (mk rt rs (BitVec.ofInt 16 n))
  | (.rtRsUnsigned mk, [.reg rt, .reg rs, .imm n]) =>
    accept (unsignedImmOk n) .immediateRange (mk rt rs (BitVec.ofInt 16 n))
  | (.rtUnsigned mk, [.reg rt, .imm n]) => accept (unsignedImmOk n) .immediateRange (mk rt (BitVec.ofInt 16 n))
  | (.rtMem mk, [.reg rt, .mem n rs]) => accept (signedImmOk n) .immediateRange (mk rt rs (BitVec.ofInt 16 n))
  | (.rsRtLabel mk, [.reg rs, .reg rt, .label l]) => do
    let target ← labelAddress labels l
    let imm ← orRefuse .targetRange (branchField P target)
    return mk rs rt imm
  | (.label mk, [.label l]) => do
    let target ← labelAddress labels l
    let addr ← orRefuse .targetRange (jumpFieldOf P target)
    return mk addr
  | _ => .error .operandForm

/-- The words of the statements, the next one standing at `here`: one word each (R71). -/
def assembleStmts (labels : List (List Char × Nat)) : Nat → List (Option (List Char) × Option Stmt) →
    Except AsmError (List Word)
  | _, [] => .ok []
  | here, (_, none) :: rest => assembleStmts labels here rest
  | here, (_, some st) :: rest => do
    let i ← assembleStmt labels (BitVec.ofNat 32 here) st
    let ws ← assembleStmts labels (here + 4) rest
    return encode i :: ws

/-- The program of an assembly text placed at `base` (`TEXT_BASE`). -/
def assemble (base : Word) (lines : List (List Char)) : Except AsmError (List Word) := do
  let parsed ← parseLines lines
  let labels := labelTable base.toNat parsed
  if (labels.map Prod.fst).Nodup then assembleStmts labels base.toNat parsed else throw .duplicateLabel

end Sys2Proof.Machine
end

