-- ==== Sys2Proof/Machine/Launch.lean ====
section
/-! DEFINITION. Launch (R24, R170): the state in which the first instruction is about to be fetched. -/

namespace Sys2Proof.Machine

/-- The register file at launch: `REGS0` where it gives a value, the mark `Unwritten` elsewhere, 0 in register 0 (R24). -/
def launchRegs (regs0 : List (RegNum × Word)) : Vector RegCell 32 :=
  regs0.foldl (fun x p => if p.1 = 0#5 then x else x.set p.1.toNat (.value p.2) p.1.isLt)
    ((Vector.replicate 32 RegCell.unwritten).set 0 (.value 0#32))

/-- The data memory at launch: the words of `MEM0`, every other word unwritten (R24). -/
def launchMem (e : Endian) (mem0 : List (Word × Word)) : Memory :=
  mem0.foldl (fun m p => Memory.writeWord e m p.1.toNat p.2) []

/-- The state at launch (R24), for the parameters the host chooses (R170). -/
def State.atLaunch (l : Launch) (regs0 : List (RegNum × Word)) (mem0 : List (Word × Word)) : State where
  x := launchRegs regs0
  pc := l.textBase
  mem := launchMem l.endian mem0
  status := .running
  launch := l

end Sys2Proof.Machine
end

