-- ==== Sys2Proof/Safety.lean ====
section
/-! DEFINITION. The terms claims are stated in: final and faulted states, runs, the invariant of well-formed machines,
and what an instruction changes and leaves unchanged. -/

namespace Sys2Proof.Machine

/-- A run that "ran correctly" ends here and nowhere else (R21, R173). -/
def State.final (s : State) : Bool := decide (s.status = .halted)

/-- States a run can pass through: `t` is `s` after some number of steps. -/
inductive Reaches (s : State) : State → Prop where
  | refl : Reaches s s
  | step {t u : State} (before : Reaches s t) (last : Machine.step t = .next u) : Reaches s u

/-- The address a fault records: that of the faulting instruction, or the one that could not be fetched (R141, R143). -/
def Cause.pc : Cause → Word
  | .fetchMisaligned a => a
  | .fetchNotAdmitted a => a
  | .reservedInstruction pc _ => pc
  | .unwrittenRegisterRead pc _ => pc
  | .integerOverflow pc => pc
  | .loadMisaligned pc _ => pc
  | .storeMisaligned pc _ => pc
  | .loadNotAdmitted pc _ => pc
  | .storeNotAdmitted pc _ => pc
  | .unwrittenMemoryRead pc _ => pc

/-- Every register holds a value: nothing is left `Unwritten` (R14). `State.reset` is such a state (log entry 1). -/
def State.AllWritten (s : State) : Prop := ∀ r, s.regCell r ≠ .unwritten

/-- The invariant of a machine launched well (R170). -/
structure State.Inv (s : State) : Prop where
  /-- The launch parameters are well formed (R170). -/
  launchWf : s.launch.wf = true
  /-- Memory keeps its canonical form. -/
  memCanonical : s.mem.wf = true
  /-- Memory holds whole words of `DATA_REGION` (R23). -/
  memWords : ∀ a, s.mem.readByte a ≠ none →
    s.launch.inData (a - a % 4) = true ∧ ∀ k, k < 4 → s.mem.readByte (a - a % 4 + k) ≠ none
  /-- Cell 0 is the constant 0 (10_state.md, head table; R12). -/
  zeroCell : s.x[0] = .value 0#32
  /-- A fault records the address in `pc` (R143). -/
  faultPc : ∀ c, s.status = .faulted c → c.pc = s.pc
  /-- A halted machine stands at `TEXT_END` (R173). -/
  haltedPc : s.status = .halted → s.pc.toNat = s.launch.textEnd

/-- `t` is `s` with register `r` written with `v` and `pc` at `next`, and nothing else changed: no other register, no
byte of memory, neither the status nor the launch parameters. Register 0 discards the write (R13). -/
structure State.WritesReg (s t : State) (r : RegNum) (v next : Word) : Prop where
  regs : ∀ q, t.regCell q = if q = r ∧ r ≠ 0#5 then .value v else s.regCell q
  pc : t.pc = next
  mem : ∀ a, t.mem.readByte a = s.mem.readByte a
  status : t.status = s.status
  launch : t.launch = s.launch

/-- `t` is `s` with `pc` at `next` and nothing else changed. -/
structure State.OnlyMovesPc (s t : State) (next : Word) : Prop where
  regs : ∀ q, t.regCell q = s.regCell q
  pc : t.pc = next
  mem : ∀ a, t.mem.readByte a = s.mem.readByte a
  status : t.status = s.status
  launch : t.launch = s.launch

/-- `t` is `s` with the word at `a` replaced by `v` and `pc` at `next`, and nothing else changed: no register, and no
byte outside the four from `a` up. -/
structure State.StoresWord (s t : State) (a v next : Word) : Prop where
  regs : ∀ q, t.regCell q = s.regCell q
  pc : t.pc = next
  word : t.mem.readWord t.launch.endian a.toNat = some v
  mem : ∀ b, b < a.toNat ∨ a.toNat + 4 ≤ b → t.mem.readByte b = s.mem.readByte b
  status : t.status = s.status
  launch : t.launch = s.launch

/-- `s` and `t` are the same machine but for `ENDIAN`: the same registers, `pc`, status and other parameters, and the
same word at every word address (R37). -/
structure SameButByteOrder (s t : State) : Prop where
  regs : ∀ q, s.regCell q = t.regCell q
  pc : s.pc = t.pc
  status : s.status = t.status
  textBase : s.launch.textBase = t.launch.textBase
  prog : s.launch.prog = t.launch.prog
  dataRegion : s.launch.dataRegion = t.launch.dataRegion
  overflow : s.launch.overflow = t.launch.overflow
  words : ∀ a : Word, isAligned a = true →
    s.mem.readWord s.launch.endian a.toNat = t.mem.readWord t.launch.endian a.toNat

end Sys2Proof.Machine
end

