-- ==== Sys2Proof/Certificates/Slice0/Obligations.lean ====
section
/-! DEFINITION. The statements for the provers: what the rules of spec/ say an instruction or the machine does. An
address, a target or a result is written out from the rule, not by the model's own operation. -/

namespace Sys2Proof.Certificates

open Sys2Proof.Machine

/-! ## Shapes several statements share -/

/-- The instruction takes the fault `c`: the status says so and nothing else changes (R140). -/
def Raises (i : Instr) (s : State) (c : Cause) : Prop := exec i s = .next { s with status := .faulted c }

/-- The exact result `S` of an arithmetic instruction (R80): outside the signed 32-bit range, under the policy `fault`,
the fault `IntegerOverflow`; otherwise register `r` receives `S mod 2^32`. -/
def ArithmeticResult (i : Instr) (s : State) (r : RegNum) (S : Int) : Prop :=
  ((S < -2147483648 ∨ 2147483647 < S) ∧ s.launch.overflow = .fault → Raises i s (.integerOverflow s.pc)) ∧
  (¬((S < -2147483648 ∨ 2147483647 < S) ∧ s.launch.overflow = .fault) →
    ∃ t, exec i s = .next t ∧ s.WritesReg t r (BitVec.ofInt 32 S) (s.pc + 4#32))

/-- An instruction that reads `rs` and then `rt` faults on the first that holds no value (R14, R15). -/
def FaultsOnUnwrittenSources (i : Instr) (s : State) (rs rt : RegNum) : Prop :=
  (s.regCell rs = .unwritten → Raises i s (.unwrittenRegisterRead s.pc rs)) ∧
  (∀ a, s.regCell rs = .value a → s.regCell rt = .unwritten → Raises i s (.unwrittenRegisterRead s.pc rt))

/-- A logical instruction of two registers (R101 to R104): its word, its faults, and its result bit by bit. -/
def RegisterLogicalRule (mk : RegNum → RegNum → RegNum → Instr) (funct : BitVec 6) (bit : Bool → Bool → Bool) : Prop :=
  ∀ rd rs rt, encode (mk rd rs rt) = 0#6 ++ rs ++ rt ++ rd ++ 0#5 ++ funct ∧
    ∀ s, FaultsOnUnwrittenSources (mk rd rs rt) s rs rt ∧
      ∀ a b, s.regCell rs = .value a → s.regCell rt = .value b →
        ∃ t v, exec (mk rd rs rt) s = .next t ∧ s.WritesReg t rd v (s.pc + 4#32) ∧
          ∀ k, k < 32 → v.getLsbD k = bit (a.getLsbD k) (b.getLsbD k)

/-- A logical instruction of a register and a zero-extended immediate (R105 to R107). -/
def ImmediateLogicalRule (mk : RegNum → RegNum → Imm → Instr) (op : BitVec 6) (bit : Bool → Bool → Bool) : Prop :=
  ∀ rt rs imm, encode (mk rt rs imm) = op ++ rs ++ rt ++ imm ∧
    ∀ s, (s.regCell rs = .unwritten → Raises (mk rt rs imm) s (.unwrittenRegisterRead s.pc rs)) ∧
      ∀ a, s.regCell rs = .value a →
        ∃ t v, exec (mk rt rs imm) s = .next t ∧ s.WritesReg t rt v (s.pc + 4#32) ∧
          ∀ k, k < 32 → v.getLsbD k = bit (a.getLsbD k) (if k < 16 then imm.getLsbD k else false)

/-- A shift (R111 to R113), its result given as a function of the value shifted and the amount. -/
def ShiftRule (mk : RegNum → RegNum → Shamt → Instr) (funct : BitVec 6) (result : Word → Nat → Word) : Prop :=
  ∀ rd rt shamt, encode (mk rd rt shamt) = 0#6 ++ 0#5 ++ rt ++ rd ++ shamt ++ funct ∧
    ∀ s, (s.regCell rt = .unwritten → Raises (mk rd rt shamt) s (.unwrittenRegisterRead s.pc rt)) ∧
      ∀ a, s.regCell rt = .value a →
        ∃ t, exec (mk rd rt shamt) s = .next t ∧ s.WritesReg t rd (result a shamt.toNat) (s.pc + 4#32)

/-- A conditional branch (R126, R127), taken where `taken` holds of the two registers. -/
def BranchRule (mk : RegNum → RegNum → Imm → Instr) (op : BitVec 6) (taken : Word → Word → Prop) : Prop :=
  ∀ rs rt imm, encode (mk rs rt imm) = op ++ rs ++ rt ++ imm ∧
    ∀ s, FaultsOnUnwrittenSources (mk rs rt imm) s rs rt ∧
      ∀ a b, s.regCell rs = .value a → s.regCell rt = .value b →
        ∃ t, exec (mk rs rt imm) s = .next t ∧
          (taken a b → s.OnlyMovesPc t (s.pc + 4#32 + imm.signExtend 32 * 4#32)) ∧
          (¬taken a b → s.OnlyMovesPc t (s.pc + 4#32))

/-- The assembler takes the number `n` among the operands of `mnemonic` exactly from `lo` to `hi`, and the field of the
instruction then has the value `n`; any other number it refuses (R69). -/
def TakesNumber {w : Nat} (mnemonic : String) (operands : Int → List Operand) (lo hi : Int) (mk : BitVec w → Instr)
    (value : BitVec w → Int) : Prop :=
  ∃ form, mnemonicForms.lookup mnemonic.toList = some form ∧
    ∀ (labels : List (List Char × Nat)) (P : Word) (n : Int),
      (lo ≤ n ∧ n ≤ hi → ∃ f, assembleStmt labels P (form, operands n) = .ok (mk f) ∧ value f = n) ∧
      (¬(lo ≤ n ∧ n ≤ hi) → assembleStmt labels P (form, operands n) = .error .immediateRange)

/-- The word `w` of the program stands at address `a` (R22). -/
def WordAt (s : State) (a w : Word) : Prop :=
  ∃ k, s.launch.prog[k]? = some w ∧ a.toNat = s.launch.textBase.toNat + 4 * k

/-- A running machine whose program stands at an aligned address (R5) has the word `w` at its `pc`. -/
def AboutToRun (s : State) (w : Word) : Prop :=
  s.status = .running ∧ s.launch.textBase.toNat % 4 = 0 ∧ WordAt s s.pc w

/-- The register an instruction writes: the "writes" column of R15. -/
def destination : Instr → Option RegNum
  | .sll rd _ _ | .srl rd _ _ | .sra rd _ _ => some rd
  | .add rd _ _ | .sub rd _ _ | .and rd _ _ | .or rd _ _ | .xor rd _ _ | .nor rd _ _ => some rd
  | .addi rt _ _ | .andi rt _ _ | .ori rt _ _ | .xori rt _ _ | .lui rt _ | .lw rt _ _ => some rt
  | .sw _ _ _ | .beq _ _ _ | .bne _ _ _ | .j _ | .jr _ => none
  | .jal _ => some 31#5

/-- The registers an instruction reads: the "reads" column of R15. -/
def sources : Instr → List RegNum
  | .sll _ rt _ | .srl _ rt _ | .sra _ rt _ => [rt]
  | .add _ rs rt | .sub _ rs rt | .and _ rs rt | .or _ rs rt | .xor _ rs rt | .nor _ rs rt => [rs, rt]
  | .addi _ rs _ | .andi _ rs _ | .ori _ rs _ | .xori _ rs _ | .lw _ rs _ | .jr rs => [rs]
  | .sw rt rs _ | .beq rs rt _ | .bne rs rt _ => [rs, rt]
  | .lui _ _ | .j _ | .jal _ => []

/-- The instructions that write `pc` by their own rule (R16, R125). -/
def isTransfer : Instr → Bool
  | .beq _ _ _ | .bne _ _ _ | .j _ | .jr _ | .jal _ => true
  | _ => false

end Sys2Proof.Certificates

open Sys2Proof Sys2Proof.Machine Sys2Proof.Certificates

/-! ## Encoding and decoding -/

/-- Decoding the word of any instruction gives the instruction back, for every value of every field (R50 to R54, R61
to R63, R72): no bit of an encoding is dropped. -/
def Obligations.DecodeOfEncode : Prop := ∀ i : Instr, decode (encode i) = .ok i

/-- A word that decodes is the word of the instruction it decodes to: each instruction has one word, its fixed fields
among its bits (R63, R72). -/
def Obligations.EncodeOfDecode : Prop := ∀ (w : Word) (i : Instr), decode w = .ok i → encode i = w

/-- The decoder table of R72, whole: a word that matches a row is the row's instruction with the fields the pattern
names, a word that matches no row is reserved, and no word matches two rows. The spec marks the table as its own
derivation from R51 to R53 and R61 to R63. -/
def Obligations.DecoderAgreesWithTable : Prop :=
  (∀ w : Word,
    let rs := w.extractLsb' 21 5
    let rt := w.extractLsb' 16 5
    let rd := w.extractLsb' 11 5
    let shamt := w.extractLsb' 6 5
    let imm := w.extractLsb' 0 16
    let addr := w.extractLsb' 0 26
    (w &&& 0xFFE0003F#32 = 0x00000000#32 → decode w = .ok (.sll rd rt shamt)) ∧
    (w &&& 0xFFE0003F#32 = 0x00000002#32 → decode w = .ok (.srl rd rt shamt)) ∧
    (w &&& 0xFFE0003F#32 = 0x00000003#32 → decode w = .ok (.sra rd rt shamt)) ∧
    (w &&& 0xFC1FFFFF#32 = 0x00000008#32 → decode w = .ok (.jr rs)) ∧
    (w &&& 0xFC0007FF#32 = 0x00000020#32 → decode w = .ok (.add rd rs rt)) ∧
    (w &&& 0xFC0007FF#32 = 0x00000022#32 → decode w = .ok (.sub rd rs rt)) ∧
    (w &&& 0xFC0007FF#32 = 0x00000024#32 → decode w = .ok (.and rd rs rt)) ∧
    (w &&& 0xFC0007FF#32 = 0x00000025#32 → decode w = .ok (.or rd rs rt)) ∧
    (w &&& 0xFC0007FF#32 = 0x00000026#32 → decode w = .ok (.xor rd rs rt)) ∧
    (w &&& 0xFC0007FF#32 = 0x00000027#32 → decode w = .ok (.nor rd rs rt)) ∧
    (w &&& 0xFC000000#32 = 0x08000000#32 → decode w = .ok (.j addr)) ∧
    (w &&& 0xFC000000#32 = 0x0C000000#32 → decode w = .ok (.jal addr)) ∧
    (w &&& 0xFC000000#32 = 0x10000000#32 → decode w = .ok (.beq rs rt imm)) ∧
    (w &&& 0xFC000000#32 = 0x14000000#32 → decode w = .ok (.bne rs rt imm)) ∧
    (w &&& 0xFC000000#32 = 0x20000000#32 → decode w = .ok (.addi rt rs imm)) ∧
    (w &&& 0xFC000000#32 = 0x30000000#32 → decode w = .ok (.andi rt rs imm)) ∧
    (w &&& 0xFC000000#32 = 0x34000000#32 → decode w = .ok (.ori rt rs imm)) ∧
    (w &&& 0xFC000000#32 = 0x38000000#32 → decode w = .ok (.xori rt rs imm)) ∧
    (w &&& 0xFFE00000#32 = 0x3C000000#32 → decode w = .ok (.lui rt imm)) ∧
    (w &&& 0xFC000000#32 = 0x8C000000#32 → decode w = .ok (.lw rt rs imm)) ∧
    (w &&& 0xFC000000#32 = 0xAC000000#32 → decode w = .ok (.sw rt rs imm))) ∧
  (∀ w : Word, (∀ r ∈ decoderTable, w &&& r.mask ≠ r.pattern) → ∃ e, decode w = .error e) ∧
  decoderTable.Pairwise (fun r q => ∀ w : Word, ¬(w &&& r.mask = r.pattern ∧ w &&& q.mask = q.pattern))

/-- A running machine that fetches a word matching no row of R72 takes the fault `ReservedInstruction` with the word
and its address, and nothing else changes (R64). -/
def Obligations.ReservedWordFaults : Prop :=
  ∀ (s : State) (w : Word), AboutToRun s w → (∀ r ∈ decoderTable, w &&& r.mask ≠ r.pattern) →
    step s = .next { s with status := .faulted (.reservedInstruction s.pc w) }

/-- The reserved encodings, each by its case of R64: an `op` the opcode map (R61) does not list; under `op` 0 a `funct`
the function map (R62) does not list; a fixed field that is not 0 (R63). No other word is reserved. -/
def Obligations.ReservedEncodings : Prop :=
  ∀ w : Word,
    let op := w.extractLsb' 26 6
    let rs := w.extractLsb' 21 5
    let rt := w.extractLsb' 16 5
    let rd := w.extractLsb' 11 5
    let shamt := w.extractLsb' 6 5
    let funct := w.extractLsb' 0 6
    (decode w = .error .unlistedOp ↔
      op ∉ [0#6, 2#6, 3#6, 4#6, 5#6, 8#6, 12#6, 13#6, 14#6, 15#6, 35#6, 43#6]) ∧
    (decode w = .error .unlistedFunct ↔
      op = 0#6 ∧ funct ∉ [0#6, 2#6, 3#6, 8#6, 32#6, 34#6, 36#6, 37#6, 38#6, 39#6]) ∧
    (decode w = .error .fixedField ↔
      (op = 0#6 ∧ funct ∈ [32#6, 34#6, 36#6, 37#6, 38#6, 39#6] ∧ shamt ≠ 0#5) ∨
      (op = 0#6 ∧ funct ∈ [0#6, 2#6, 3#6] ∧ rs ≠ 0#5) ∨
      (op = 0#6 ∧ funct = 8#6 ∧ ¬(rt = 0#5 ∧ rd = 0#5 ∧ shamt = 0#5)) ∨
      (op = 15#6 ∧ rs ≠ 0#5))

/-- The eleven words the source prints decode to the instructions it prints (95_test_vectors.md 1.1 and 1.2). -/
def Obligations.SourceWordsDecode : Prop :=
  decode 0b00000010001100101000000000100000#32 = .ok (.add 16#5 17#5 18#5) ∧
  decode 0b00000001011011010100000000100010#32 = .ok (.sub 8#5 11#5 13#5) ∧
  decode 0b00100010001100000000000000000101#32 = .ok (.addi 16#5 17#5 5#16) ∧
  decode 0b00100010011010001111111111110100#32 = .ok (.addi 8#5 19#5 (-12)) ∧
  decode 0b10001100000010100000000000100000#32 = .ok (.lw 10#5 0#5 32#16) ∧
  decode 0b10101101001100010000000000000100#32 = .ok (.sw 17#5 9#5 4#16) ∧
  decode 0b00000000000100010100000010000000#32 = .ok (.sll 8#5 17#5 2#5) ∧
  decode 0b00000000000100011001000010000010#32 = .ok (.srl 18#5 17#5 2#5) ∧
  decode 0b00000000000100011001100010000011#32 = .ok (.sra 19#5 17#5 2#5) ∧
  decode 0b00100010001101111111111111110001#32 = .ok (.addi 23#5 17#5 (-15)) ∧
  decode 0b00000010111100110100000000100010#32 = .ok (.sub 8#5 23#5 19#5)

/-! ## The step -/

/-- A step runs the decoded instruction: nothing is added around `exec`, which itself moves the `pc` (R26). -/
def Obligations.StepRunsDecodedInstruction : Prop :=
  ∀ (s : State) (w : Word) (i : Instr), AboutToRun s w → decode w = .ok i → step s = exec i s

/-- `Fetch(a)` (R36): the tests in their order, and the program word where both pass. -/
def Obligations.FetchRule : Prop :=
  ∀ (s : State) (a : Word), s.launch.textBase.toNat % 4 = 0 →
    (a.toNat % 4 ≠ 0 → s.fetch a = .error (.fetchMisaligned a)) ∧
    (a.toNat % 4 = 0 → ¬(s.launch.textBase.toNat ≤ a.toNat ∧
        a.toNat < s.launch.textBase.toNat + 4 * s.launch.prog.length) → s.fetch a = .error (.fetchNotAdmitted a)) ∧
    (∀ w, WordAt s a w → s.fetch a = .ok w)

/-- A running machine whose `pc` is not `TEXT_END` and cannot be fetched takes the fetch fault, which records the `pc`,
and nothing else changes (R18, R26, R141). -/
def Obligations.BadPcFaults : Prop :=
  ∀ s : State, s.status = .running → s.pc.toNat ≠ s.launch.textBase.toNat + 4 * s.launch.prog.length →
    (s.pc.toNat % 4 ≠ 0 → step s = .next { s with status := .faulted (.fetchMisaligned s.pc) }) ∧
    (s.pc.toNat % 4 = 0 → ¬(s.launch.textBase.toNat ≤ s.pc.toNat ∧
        s.pc.toNat < s.launch.textBase.toNat + 4 * s.launch.prog.length) →
      step s = .next { s with status := .faulted (.fetchNotAdmitted s.pc) })

/-- The normal end of a run (R173 a): a step that begins at `TEXT_END` sets the status and changes nothing else, and no
other step halts. -/
def Obligations.HaltsExactlyAtTextEnd : Prop :=
  ∀ s : State,
    (s.status = .running → s.pc.toNat = s.launch.textBase.toNat + 4 * s.launch.prog.length →
      step s = .next { s with status := .halted }) ∧
    (∀ t, step s = .next t → t.status = .halted →
      s.pc.toNat = s.launch.textBase.toNat + 4 * s.launch.prog.length)

/-- A machine that is not running takes no step (R21, R26). That the host's outcome for it is a stop with the reason in
the status is the model's choice (log entry 8). -/
def Obligations.StoppedMachineTakesNoStep : Prop :=
  ∀ s : State, (s.status = .halted → step s = .fault .halted) ∧
    (∀ c, s.status = .faulted c → step s = .fault (.faulted c))

/-- Every step of a running machine answers a next state: no word, no operand and no address stops the model
(R26: "The step is a total function of the state and the parameters"). -/
def Obligations.RunningMachineAlwaysSteps : Prop :=
  ∀ s : State, s.status = .running → ∃ t, step s = .next t

/-- A fault changes the status and nothing else, its record names the `pc`, and a faulted machine takes no further step
(R140, R143). -/
def Obligations.FaultChangesOnlyStatus : Prop :=
  ∀ (s t : State) (c : Cause), step s = .next t → t.status = .faulted c →
    t = { s with status := .faulted c } ∧ c.pc = s.pc ∧ ∀ u, step t ≠ .next u

/-- No step changes a launch parameter, so every fetch from one address reads the same word for the whole run (R5, R22,
R41). -/
def Obligations.StepNeverChangesTheText : Prop :=
  ∀ s t : State, step s = .next t → t.launch = s.launch ∧ ∀ a, t.fetch a = s.fetch a

/-- Where a run goes on, an instruction that is no control transfer is followed by the one after it (R17). -/
def Obligations.SequentialAdvance : Prop :=
  ∀ (i : Instr) (s t : State), s.status = .running → isTransfer i = false → exec i s = .next t →
    t.status = .running → t.pc = s.pc + 4#32

/-- Every instruction but `jr` executed at an aligned `pc` leaves it aligned (R18). -/
def Obligations.OnlyJrMisalignsPc : Prop :=
  ∀ (i : Instr) (s t : State), (∀ rs, i ≠ .jr rs) → s.pc.toNat % 4 = 0 → exec i s = .next t → t.pc.toNat % 4 = 0

/-- No delay slot (R125): after a taken `beq`, the very next step executes the instruction at the target. -/
def Obligations.BranchHasNoDelaySlot : Prop :=
  ∀ (s : State) (w w' : Word) (rs rt : RegNum) (imm : Imm) (a : Word) (i : Instr),
    AboutToRun s w → decode w = .ok (.beq rs rt imm) → s.regCell rs = .value a → s.regCell rt = .value a →
    WordAt s (s.pc + 4#32 + imm.signExtend 32 * 4#32) w' → decode w' = .ok i →
    ∃ t, step s = .next t ∧ s.OnlyMovesPc t (s.pc + 4#32 + imm.signExtend 32 * 4#32) ∧ step t = exec i t

/-- The all-zero word moves the `pc` on and changes nothing else (R65). -/
def Obligations.ZeroWordOnlyAdvances : Prop :=
  ∀ s : State, AboutToRun s 0#32 → ∃ t, step s = .next t ∧ s.OnlyMovesPc t (s.pc + 4#32)

/-! ## Registers -/

/-- Register 0 reads as 0, and a write to it has no effect; any other register holds what was written (R12, R13). -/
def Obligations.RegisterZeroDiscardsWrites : Prop :=
  ∀ (s : State) (v : Word), s.readReg 0#5 = .ok 0#32 ∧ s.writeReg 0#5 v = s ∧
    ∀ r, r ≠ 0#5 → (s.writeReg r v).readReg r = .ok v ∧ ∀ q, q ≠ r → (s.writeReg r v).regCell q = s.regCell q

/-- An instruction whose destination is register 0 changes nothing but the `pc`, or takes a fault (R13, R65). The link
of `jal` is no case: its destination is register 31. -/
def Obligations.DestinationZeroChangesOnlyPc : Prop :=
  ∀ (i : Instr) (s t : State), destination i = some 0#5 → exec i s = .next t →
    s.OnlyMovesPc t (s.pc + 4#32) ∨ ∃ c, t = { s with status := .faulted c }

/-- Every register but the one R15 says the instruction writes is unchanged, for all 21 instructions, whether it
completes or faults. -/
def Obligations.OnlyDestinationChanges : Prop :=
  ∀ (i : Instr) (s t : State), exec i s = .next t → ∀ q, destination i ≠ some q → t.regCell q = s.regCell q

/-- A register R15 does not say the instruction reads has no influence on it: another value there changes neither the
next `pc`, nor the status, nor memory, nor any other register. -/
def Obligations.UnreadRegisterHasNoInfluence : Prop :=
  ∀ (i : Instr) (s t : State) (q : RegNum) (v : Word), q ∉ sources i → exec i s = .next t →
    ∃ t', exec i (s.writeReg q v) = .next t' ∧ t'.pc = t.pc ∧ t'.status = t.status ∧ t'.mem = t.mem ∧
      ∀ r, r ≠ q → t'.regCell r = t.regCell r

/-- Once written, a register is never `Unwritten` again (R14). -/
def Obligations.WrittenRegistersStayWritten : Prop :=
  ∀ (s t : State) (r : RegNum), step s = .next t → s.regCell r ≠ .unwritten → t.regCell r ≠ .unwritten

/-- From a state in which every register holds a value, no step ends in `UnwrittenRegisterRead`, and every register
holds a value after it (R14). `State.reset` is such a state by the model's choice of `REGS0` (log entry 1). -/
def Obligations.WrittenMachineNeverReadsUnwritten : Prop :=
  ∀ s t : State, s.AllWritten → step s = .next t →
    t.AllWritten ∧ ∀ pc r, t.status ≠ .faulted (.unwrittenRegisterRead pc r)

/-! ## Memory -/

/-- `MemRead(a, 4)` (R34): the tests in their order, and the word where all pass; the text region is not admitted. A
read changes no state: it answers no state. -/
def Obligations.MemReadRule : Prop :=
  ∀ (s : State) (a : Word),
    (a.toNat % 4 ≠ 0 → s.memRead a = .error (.loadMisaligned s.pc a)) ∧
    (a.toNat % 4 = 0 → s.launch.inData a.toNat = false → s.memRead a = .error (.loadNotAdmitted s.pc a)) ∧
    (a.toNat % 4 = 0 → s.launch.inData a.toNat = true → s.mem.readWord s.launch.endian a.toNat = none →
      s.memRead a = .error (.unwrittenMemoryRead s.pc a)) ∧
    (∀ v, a.toNat % 4 = 0 → s.launch.inData a.toNat = true → s.mem.readWord s.launch.endian a.toNat = some v →
      s.memRead a = .ok v) ∧
    (s.launch.inText a.toNat = true → s.launch.inData a.toNat = false)

/-- `MemWrite(a, 4, v)` (R35): the tests in their order; the word at `a` is replaced, no other word changes, and
nothing else does. -/
def Obligations.MemWriteRule : Prop :=
  ∀ (s : State) (a v : Word),
    (a.toNat % 4 ≠ 0 → s.memWrite a v = .error (.storeMisaligned s.pc a)) ∧
    (a.toNat % 4 = 0 → s.launch.inData a.toNat = false → s.memWrite a v = .error (.storeNotAdmitted s.pc a)) ∧
    (a.toNat % 4 = 0 → s.launch.inData a.toNat = true →
      ∃ m, s.memWrite a v = .ok { s with mem := m } ∧ m.readWord s.launch.endian a.toNat = some v ∧
        ∀ b : Word, b.toNat % 4 = 0 → b ≠ a →
          m.readWord s.launch.endian b.toNat = s.mem.readWord s.launch.endian b.toNat) ∧
    (s.launch.inText a.toNat = true → s.launch.inData a.toNat = false)

/-- A `lw` after a `sw` to the same address, through any base and displacement, loads the word stored (R39). -/
def Obligations.LoadReturnsTheStoredWord : Prop :=
  ∀ (s : State) (rt rs : RegNum) (imm : Imm) (base v : Word), s.regCell rs = .value base → s.regCell rt = .value v →
    (base + imm.signExtend 32).toNat % 4 = 0 → s.launch.inData (base + imm.signExtend 32).toNat = true →
    ∃ t, exec (.sw rt rs imm) s = .next t ∧
      ∀ (rt' rs' : RegNum) (imm' : Imm) (base' : Word), t.regCell rs' = .value base' →
        base' + imm'.signExtend 32 = base + imm.signExtend 32 →
        ∃ u, exec (.lw rt' rs' imm') t = .next u ∧ t.WritesReg u rt' v (t.pc + 4#32)

/-- A byte that a step changes lies in the word a `sw` stores to: nothing else writes memory (R23). -/
def Obligations.OnlyStoreWordChangesMemory : Prop :=
  ∀ (s t : State) (b : Nat), step s = .next t → t.mem.readByte b ≠ s.mem.readByte b →
    ∃ (rt rs : RegNum) (imm : Imm) (base : Word), s.nextInstr = .ok (.sw rt rs imm) ∧ s.regCell rs = .value base ∧
      (base + imm.signExtend 32).toNat ≤ b ∧ b < (base + imm.signExtend 32).toNat + 4

/-- A data access to the text region faults: the program can be neither read nor overwritten (R41). -/
def Obligations.DataAccessToTextFaults : Prop :=
  ∀ (s : State) (rt rs : RegNum) (imm : Imm) (base v : Word), s.regCell rs = .value base →
    (base + imm.signExtend 32).toNat % 4 = 0 → s.launch.inText (base + imm.signExtend 32).toNat = true →
    Raises (.lw rt rs imm) s (.loadNotAdmitted s.pc (base + imm.signExtend 32)) ∧
    (s.regCell rt = .value v → Raises (.sw rt rs imm) s (.storeNotAdmitted s.pc (base + imm.signExtend 32)))

/-- No program can observe the byte order (R37): two machines that differ in `ENDIAN` alone take steps that differ in
it alone. -/
def Obligations.ByteOrderIsUnobservable : Prop :=
  ∀ s s' : State, SameButByteOrder s s' →
    (∀ t, step s = .next t → ∃ t', step s' = .next t' ∧ SameButByteOrder t t') ∧
    (∀ f, step s = .fault f → step s' = .fault f) ∧ (∀ r, step s ≠ .refused r)

/-! ## The invariant, launch and reset -/

/-- Every step keeps the invariant: well-formed parameters, canonical memory made of whole words of `DATA_REGION`,
cell 0 the constant 0, a fault's record in agreement with `pc`, a halted machine at `TEXT_END`. -/
def Obligations.StepKeepsInvariant : Prop := ∀ s t : State, s.Inv → step s = .next t → t.Inv

/-- The state after reset meets the invariant. -/
def Obligations.ResetMeetsInvariant : Prop := State.reset.Inv

/-- Every well-formed launch starts in a state that meets the invariant (R170). -/
def Obligations.LaunchMeetsInvariant : Prop :=
  ∀ (l : Launch) (regs0 : List (RegNum × Word)) (mem0 : List (Word × Word)), l.wf = true → regs0Wf regs0 = true →
    mem0Wf l mem0 = true → (State.atLaunch l regs0 mem0).Inv

/-- The value of every piece of state at a well-formed launch, and the default of `TEXT_BASE` (R24). -/
def Obligations.LaunchValues : Prop :=
  Config.defaultTextBase = 0x00400000#32 ∧
  ∀ (l : Launch) (regs0 : List (RegNum × Word)) (mem0 : List (Word × Word)), l.wf = true → regs0Wf regs0 = true →
    mem0Wf l mem0 = true →
    let s := State.atLaunch l regs0 mem0
    s.regCell 0#5 = .value 0#32 ∧
    (∀ i v, (i, v) ∈ regs0 → s.regCell i = .value v) ∧
    (∀ i, i ≠ 0#5 → (∀ v, (i, v) ∉ regs0) → s.regCell i = .unwritten) ∧
    s.pc = l.textBase ∧
    (∀ a v, (a, v) ∈ mem0 → s.mem.readWord l.endian a.toNat = some v) ∧
    (∀ a : Word, a.toNat % 4 = 0 → (∀ v, (a, v) ∉ mem0) → s.mem.readWord l.endian a.toNat = none) ∧
    s.status = .running ∧ s.launch = l

/-- The state after reset: `pc` at the default `TEXT_BASE`, running, memory empty (R24). That every register holds 0,
that no program is placed, that every address is data, and the byte order are the model's choices (log entries 1, 2, 3,
4 and 6). -/
def Obligations.ResetValues : Prop :=
  State.reset.pc = 0x00400000#32 ∧ State.reset.status = .running ∧ (∀ a, State.reset.mem.readByte a = none) ∧
  (∀ r, State.reset.regCell r = .value 0#32) ∧ State.reset.launch.textBase = 0x00400000#32 ∧
  State.reset.launch.overflow = .fault ∧ State.reset.launch.prog = [] ∧
  (∀ a : Word, a.toNat % 4 = 0 → State.reset.launch.inData a.toNat = true)

/-- The model's placing of an instruction (log entries 2 and 25): from any state, the step after it runs exactly the
instruction placed. -/
def Obligations.PlacedInstructionRunsNext : Prop :=
  ∀ (s : State) (nbits w : Nat) (i : Instr), decodeTableWord nbits w = some i →
    step (s.withFetchWord nbits w) = exec i (s.withFetchWord nbits w)

/-! ## Arithmetic -/

/-- `add` (R81): its word, its faults in their order, and its result. -/
def Obligations.AddRule : Prop :=
  ∀ rd rs rt, encode (.add rd rs rt) = 0#6 ++ rs ++ rt ++ rd ++ 0#5 ++ 32#6 ∧
    ∀ s, FaultsOnUnwrittenSources (.add rd rs rt) s rs rt ∧
      ∀ a b, s.regCell rs = .value a → s.regCell rt = .value b →
        ArithmeticResult (.add rd rs rt) s rd (a.toInt + b.toInt)

/-- `sub` (R82): its word, its faults in their order, and its result. -/
def Obligations.SubRule : Prop :=
  ∀ rd rs rt, encode (.sub rd rs rt) = 0#6 ++ rs ++ rt ++ rd ++ 0#5 ++ 34#6 ∧
    ∀ s, FaultsOnUnwrittenSources (.sub rd rs rt) s rs rt ∧
      ∀ a b, s.regCell rs = .value a → s.regCell rt = .value b →
        ArithmeticResult (.sub rd rs rt) s rd (a.toInt - b.toInt)

/-- `addi` (R83): its word, its faults in their order, and its result; the immediate is two's complement (R55). -/
def Obligations.AddiRule : Prop :=
  ∀ rt rs imm, encode (.addi rt rs imm) = 8#6 ++ rs ++ rt ++ imm ∧
    ∀ s, (s.regCell rs = .unwritten → Raises (.addi rt rs imm) s (.unwrittenRegisterRead s.pc rs)) ∧
      ∀ a, s.regCell rs = .value a → ArithmeticResult (.addi rt rs imm) s rt (a.toInt + imm.toInt)

/-- The bit tests of R80: an addition overflows when its operands agree in bit 31 and the sum does not; a subtraction
when they differ and the difference differs from the first. Without that fault the 32-bit wrap-around result is
written. -/
def Obligations.OverflowByBitTests : Prop :=
  ∀ (s : State) (rd rs rt : RegNum) (a b : Word), s.regCell rs = .value a → s.regCell rt = .value b →
    (if s.launch.overflow = .fault ∧ a.msb = b.msb ∧ (a + b).msb ≠ a.msb then
        Raises (.add rd rs rt) s (.integerOverflow s.pc)
      else ∃ t, exec (.add rd rs rt) s = .next t ∧ s.WritesReg t rd (a + b) (s.pc + 4#32)) ∧
    (if s.launch.overflow = .fault ∧ a.msb ≠ b.msb ∧ (a - b).msb ≠ a.msb then
        Raises (.sub rd rs rt) s (.integerOverflow s.pc)
      else ∃ t, exec (.sub rd rs rt) s = .next t ∧ s.WritesReg t rd (a - b) (s.pc + 4#32))

/-! ## Load and store -/

/-- `lw` (R91): its word, its faults in their order, and its result; the address sum wraps and cannot overflow (R90). -/
def Obligations.LoadWordRule : Prop :=
  ∀ rt rs imm, encode (.lw rt rs imm) = 35#6 ++ rs ++ rt ++ imm ∧
    ∀ s, (s.regCell rs = .unwritten → Raises (.lw rt rs imm) s (.unwrittenRegisterRead s.pc rs)) ∧
      ∀ base ea, s.regCell rs = .value base → ea = base + imm.signExtend 32 →
        (ea.toNat % 4 ≠ 0 → Raises (.lw rt rs imm) s (.loadMisaligned s.pc ea)) ∧
        (ea.toNat % 4 = 0 → s.launch.inData ea.toNat = false →
          Raises (.lw rt rs imm) s (.loadNotAdmitted s.pc ea)) ∧
        (ea.toNat % 4 = 0 → s.launch.inData ea.toNat = true → s.mem.readWord s.launch.endian ea.toNat = none →
          Raises (.lw rt rs imm) s (.unwrittenMemoryRead s.pc ea)) ∧
        (∀ v, ea.toNat % 4 = 0 → s.launch.inData ea.toNat = true →
          s.mem.readWord s.launch.endian ea.toNat = some v →
          ∃ t, exec (.lw rt rs imm) s = .next t ∧ s.WritesReg t rt v (s.pc + 4#32)) ∧
        (s.launch.inText ea.toNat = true → s.launch.inData ea.toNat = false)

/-- `sw` (R92): its word, its faults in their order, and the word it stores; every other byte of memory and every
register is unchanged. -/
def Obligations.StoreWordRule : Prop :=
  ∀ rt rs imm, encode (.sw rt rs imm) = 43#6 ++ rs ++ rt ++ imm ∧
    ∀ s, FaultsOnUnwrittenSources (.sw rt rs imm) s rs rt ∧
      ∀ base v ea, s.regCell rs = .value base → s.regCell rt = .value v → ea = base + imm.signExtend 32 →
        (ea.toNat % 4 ≠ 0 → Raises (.sw rt rs imm) s (.storeMisaligned s.pc ea)) ∧
        (ea.toNat % 4 = 0 → s.launch.inData ea.toNat = false →
          Raises (.sw rt rs imm) s (.storeNotAdmitted s.pc ea)) ∧
        (ea.toNat % 4 = 0 → s.launch.inData ea.toNat = true →
          ∃ t, exec (.sw rt rs imm) s = .next t ∧ s.StoresWord t ea v (s.pc + 4#32)) ∧
        (s.launch.inText ea.toNat = true → s.launch.inData ea.toNat = false)

/-! ## Logic, shifts, constants -/

/-- `and`, `or`, `xor`, `nor` (R101 to R104), each by the truth table of R100. -/
def Obligations.RegisterLogicalRules : Prop :=
  RegisterLogicalRule .and 36#6 (fun a b => a && b) ∧ RegisterLogicalRule .or 37#6 (fun a b => a || b) ∧
  RegisterLogicalRule .xor 38#6 (fun a b => a != b) ∧ RegisterLogicalRule .nor 39#6 (fun a b => !(a || b))

/-- `andi`, `ori`, `xori` (R105 to R107), the immediate zero-extended. -/
def Obligations.ImmediateLogicalRules : Prop :=
  ImmediateLogicalRule .andi 12#6 (fun a b => a && b) ∧ ImmediateLogicalRule .ori 13#6 (fun a b => a || b) ∧
  ImmediateLogicalRule .xori 14#6 (fun a b => a != b)

/-- `sll`, `srl`, `sra` (R111 to R113), each by the arithmetic of its pseudocode's comment (R110). -/
def Obligations.ShiftRules : Prop :=
  ShiftRule .sll 0#6 (fun a n => BitVec.ofNat 32 (a.toNat * 2 ^ n)) ∧
  ShiftRule .srl 2#6 (fun a n => BitVec.ofNat 32 (a.toNat / 2 ^ n)) ∧
  ShiftRule .sra 3#6 (fun a n => BitVec.ofInt 32 (a.toInt / 2 ^ n))

/-- `lui` (R120): its word, and its result in every state; it cannot fault. -/
def Obligations.LoadUpperRule : Prop :=
  ∀ rt imm, encode (.lui rt imm) = 15#6 ++ 0#5 ++ rt ++ imm ∧
    ∀ s, ∃ t, exec (.lui rt imm) s = .next t ∧ s.WritesReg t rt (imm ++ 0#16) (s.pc + 4#32)

/-- The 16-bit constant idiom (R121): `addi rt, $0, c` writes the sign-extended constant under either policy. -/
def Obligations.AddiLoadsConstant : Prop :=
  ∀ (s : State) (rt : RegNum) (imm : Imm),
    ∃ t, exec (.addi rt 0#5 imm) s = .next t ∧ s.WritesReg t rt (BitVec.ofInt 32 imm.toInt) (s.pc + 4#32)

/-- The 32-bit constant idiom (R122): `lui` then `ori` on the same register writes any constant. -/
def Obligations.LuiOriLoadsConstant : Prop :=
  ∀ (s : State) (rt : RegNum) (c : Word),
    ∃ t u, exec (.lui rt (c.extractLsb' 16 16)) s = .next t ∧ exec (.ori rt rt (c.extractLsb' 0 16)) t = .next u ∧
      s.WritesReg u rt c (s.pc + 8#32)

/-! ## Control transfer -/

/-- `beq` and `bne` (R126, R127): the word, the faults, and the two outcomes; nothing but the `pc` changes. -/
def Obligations.BranchRules : Prop :=
  BranchRule .beq 4#6 (fun a b => a = b) ∧ BranchRule .bne 5#6 (fun a b => a ≠ b)

/-- `j` (R128): its word, and its target in every state; it cannot fault. -/
def Obligations.JumpRule : Prop :=
  ∀ addr : JumpField, encode (.j addr) = 2#6 ++ addr ∧
    ∀ s, ∃ t, exec (.j addr) s = .next t ∧
      s.OnlyMovesPc t ((s.pc + 4#32).extractLsb' 28 4 ++ addr ++ 0#2)

/-- `jr` (R129): its word, its one fault, its target, which may be any value, and what the next step does at a target
that holds no instruction. -/
def Obligations.JumpRegisterRule : Prop :=
  ∀ rs, encode (.jr rs) = 0#6 ++ rs ++ 0#5 ++ 0#5 ++ 0#5 ++ 8#6 ∧
    ∀ s, (s.regCell rs = .unwritten → Raises (.jr rs) s (.unwrittenRegisterRead s.pc rs)) ∧
      ∀ a, s.regCell rs = .value a → ∃ t, exec (.jr rs) s = .next t ∧ s.OnlyMovesPc t a ∧
        (s.status = .running → s.launch.textBase.toNat % 4 = 0 →
          (if a.toNat % 4 ≠ 0 then step t = .next { t with status := .faulted (.fetchMisaligned a) }
            else if a.toNat = s.launch.textBase.toNat + 4 * s.launch.prog.length then
              step t = .next { t with status := .halted }
            else (a.toNat < s.launch.textBase.toNat ∨
                s.launch.textBase.toNat + 4 * s.launch.prog.length < a.toNat) →
              step t = .next { t with status := .faulted (.fetchNotAdmitted a) }))

/-- `jal` (R130): its word, the link in register 31 and the target in every state; it cannot fault. -/
def Obligations.JumpAndLinkRule : Prop :=
  ∀ addr : JumpField, encode (.jal addr) = 3#6 ++ addr ∧
    ∀ s, ∃ t, exec (.jal addr) s = .next t ∧
      s.WritesReg t 31#5 (s.pc + 4#32) ((s.pc + 4#32).extractLsb' 28 4 ++ addr ++ 0#2)

/-- A call returns (R130, R131): `jal` and then `jr` of register 31 at the target comes back to the instruction after
the `jal`. -/
def Obligations.CallReturns : Prop :=
  ∀ (s : State) (addr : JumpField),
    ∃ t u, exec (.jal addr) s = .next t ∧ exec (.jr 31#5) t = .next u ∧
      s.WritesReg u 31#5 (s.pc + 4#32) (s.pc + 4#32)

/-! ## The assembler -/

/-- Label resolution (R70) inverts the targets of R58 and R59: a branch or jump whose field the assembler accepts goes
to its label. -/
def Obligations.ResolvedLabelsAreReached : Prop :=
  ∀ (s : State) (L : Word),
    (∀ imm, branchField s.pc L = some imm → ∃ t, exec (.beq 0#5 0#5 imm) s = .next t ∧ t.pc = L) ∧
    (∀ addr, jumpFieldOf s.pc L = some addr → ∃ t, exec (.j addr) s = .next t ∧ t.pc = L)

/-- An immediate or a shift amount is accepted exactly in the range of its instruction, and the field then holds the
number written (R69): it is refused, not truncated. All ten instructions with a number among their operands. -/
def Obligations.ImmediateRefusedNotTruncated : Prop :=
  (∀ rt rs : RegNum,
    TakesNumber "addi" (fun n => [.reg rt, .reg rs, .imm n]) (-32768) 32767 (.addi rt rs) BitVec.toInt ∧
    TakesNumber "lw" (fun n => [.reg rt, .mem n rs]) (-32768) 32767 (.lw rt rs) BitVec.toInt ∧
    TakesNumber "sw" (fun n => [.reg rt, .mem n rs]) (-32768) 32767 (.sw rt rs) BitVec.toInt ∧
    TakesNumber "andi" (fun n => [.reg rt, .reg rs, .imm n]) 0 65535 (.andi rt rs) (fun f => f.toNat) ∧
    TakesNumber "ori" (fun n => [.reg rt, .reg rs, .imm n]) 0 65535 (.ori rt rs) (fun f => f.toNat) ∧
    TakesNumber "xori" (fun n => [.reg rt, .reg rs, .imm n]) 0 65535 (.xori rt rs) (fun f => f.toNat) ∧
    TakesNumber "lui" (fun n => [.reg rt, .imm n]) 0 65535 (.lui rt) (fun f => f.toNat)) ∧
  ∀ rd rt : RegNum,
    TakesNumber "sll" (fun n => [.reg rd, .reg rt, .imm n]) 0 31 (.sll rd rt) (fun f => f.toNat) ∧
    TakesNumber "srl" (fun n => [.reg rd, .reg rt, .imm n]) 0 31 (.srl rd rt) (fun f => f.toNat) ∧
    TakesNumber "sra" (fun n => [.reg rd, .reg rt, .imm n]) 0 31 (.sra rd rt) (fun f => f.toNat)
end

