-- ==== Sys2Proof/Laws/Encoding.lean ====
section
/-! SUPPORT. The fields of an encoded word: each is what was put there (R51 to R53). -/

namespace Sys2Proof

/-- The bits of an R-type word (R51). -/
theorem rWord_getLsbD (rs rt rd : RegNum) (shamt : Shamt) (funct : BitVec 6) (k : Nat) :
    (rWord rs rt rd shamt funct).getLsbD k =
      if k < 6 then funct.getLsbD k else if k < 11 then shamt.getLsbD (k - 6)
      else if k < 16 then rd.getLsbD (k - 11) else if k < 21 then rt.getLsbD (k - 16)
      else if k < 26 then rs.getLsbD (k - 21) else false := by
  unfold rWord
  simp only [BitVec.getLsbD_append]
  repeat' split
  all_goals first | omega | rfl | simp

/-- The bits of an I-type word (R52). -/
theorem iWord_getLsbD (op : BitVec 6) (rs rt : RegNum) (imm : Imm) (k : Nat) :
    (iWord op rs rt imm).getLsbD k =
      if k < 16 then imm.getLsbD k else if k < 21 then rt.getLsbD (k - 16)
      else if k < 26 then rs.getLsbD (k - 21) else op.getLsbD (k - 26) := by
  unfold iWord
  simp only [BitVec.getLsbD_append]
  repeat' split
  all_goals first | omega | rfl

/-- The bits of a J-type word (R53). -/
theorem jWord_getLsbD (op : BitVec 6) (addr : JumpField) (k : Nat) :
    (jWord op addr).getLsbD k = if k < 26 then addr.getLsbD k else op.getLsbD (k - 26) := by
  unfold jWord
  simp only [BitVec.getLsbD_append]

section RType
variable (rs rt rd : RegNum) (shamt : Shamt) (funct : BitVec 6)

@[simp] theorem opField_rWord : opField (rWord rs rt rd shamt funct) = 0#6 := by
  ext i hi; simp only [opField, BitVec.getElem_extractLsb', rWord_getLsbD]; interval_cases i <;> simp
@[simp] theorem rsField_rWord : rsField (rWord rs rt rd shamt funct) = rs := by
  ext i hi; simp only [rsField, BitVec.getElem_extractLsb', rWord_getLsbD]; interval_cases i <;> simp
@[simp] theorem rtField_rWord : rtField (rWord rs rt rd shamt funct) = rt := by
  ext i hi; simp only [rtField, BitVec.getElem_extractLsb', rWord_getLsbD]; interval_cases i <;> simp
@[simp] theorem rdField_rWord : rdField (rWord rs rt rd shamt funct) = rd := by
  ext i hi; simp only [rdField, BitVec.getElem_extractLsb', rWord_getLsbD]; interval_cases i <;> simp
@[simp] theorem shamtField_rWord : shamtField (rWord rs rt rd shamt funct) = shamt := by
  ext i hi; simp only [shamtField, BitVec.getElem_extractLsb', rWord_getLsbD]; interval_cases i <;> simp
@[simp] theorem functField_rWord : functField (rWord rs rt rd shamt funct) = funct := by
  ext i hi; simp only [functField, BitVec.getElem_extractLsb', rWord_getLsbD]; interval_cases i <;> simp

end RType

section IType
variable (op : BitVec 6) (rs rt : RegNum) (imm : Imm)

@[simp] theorem opField_iWord : opField (iWord op rs rt imm) = op := by
  ext i hi; simp only [opField, BitVec.getElem_extractLsb', iWord_getLsbD]; interval_cases i <;> simp
@[simp] theorem rsField_iWord : rsField (iWord op rs rt imm) = rs := by
  ext i hi; simp only [rsField, BitVec.getElem_extractLsb', iWord_getLsbD]; interval_cases i <;> simp
@[simp] theorem rtField_iWord : rtField (iWord op rs rt imm) = rt := by
  ext i hi; simp only [rtField, BitVec.getElem_extractLsb', iWord_getLsbD]; interval_cases i <;> simp
@[simp] theorem immField_iWord : immField (iWord op rs rt imm) = imm := by
  ext i hi; simp only [immField, BitVec.getElem_extractLsb', iWord_getLsbD]; interval_cases i <;> simp

end IType

section JType
variable (op : BitVec 6) (addr : JumpField)

@[simp] theorem opField_jWord : opField (jWord op addr) = op := by
  ext i hi; simp only [opField, BitVec.getElem_extractLsb', jWord_getLsbD]; interval_cases i <;> simp
@[simp] theorem addrField_jWord : addrField (jWord op addr) = addr := by
  ext i hi; simp only [addrField, BitVec.getElem_extractLsb', jWord_getLsbD]; interval_cases i <;> simp

end JType

@[simp] theorem ifFixed_true (i : Instr) : ifFixed true i = .ok i := rfl
@[simp] theorem ifFixed_false (i : Instr) : ifFixed false i = .error .fixedField := rfl

/-- What a fixed-field test can answer. -/
theorem ifFixed_eq_ok {fixed : Bool} {i k : Instr} (h : ifFixed fixed i = .ok k) : fixed = true ∧ k = i := by
  cases fixed
  · cases h
  · exact ⟨rfl, (Except.ok.inj h).symm⟩

end Sys2Proof
end

