-- ==== Sys2Proof/Laws/Memory.lean ====
section
/-! SUPPORT. The data memory: reading after writing, and that every write keeps the canonical form. -/

namespace Sys2Proof.Machine

/-- Reading a byte after one is stored: the stored byte at its address, every other byte as before. -/
theorem Memory.readByte_writeByte (m : Memory) (a b : Nat) (v : Byte) :
    (m.writeByte a v).readByte b = if b = a then some v else m.readByte b := by
  induction m with
  | nil => simp [Memory.writeByte, Memory.readByte, eq_comm]
  | cons c rest ih =>
    obtain ⟨k, w⟩ := c
    simp only [Memory.writeByte]
    split
    · simp [Memory.readByte, eq_comm]
    · split
      · rename_i h; subst h
        by_cases hb : b = a <;> simp [Memory.readByte, hb, eq_comm (a := a)]
      · simp only [Memory.readByte, ih]; split <;> split <;> simp_all

theorem Memory.risesFrom_mono {m : Memory} {lo lo' : Nat} (h : m.risesFrom lo = true) (hle : lo' ≤ lo) :
    m.risesFrom lo' = true := by
  cases m with
  | nil => rfl
  | cons c rest =>
    simp only [Memory.risesFrom, Bool.and_eq_true, decide_eq_true_eq] at h ⊢
    exact ⟨by omega, h.2⟩

theorem Memory.risesFrom_writeByte {m : Memory} {lo a : Nat} {v : Byte} (h : m.risesFrom lo = true) (ha : lo ≤ a) :
    (m.writeByte a v).risesFrom lo = true := by
  induction m generalizing lo with
  | nil => simpa [Memory.writeByte, Memory.risesFrom] using ha
  | cons c rest ih =>
    obtain ⟨k, w⟩ := c
    simp only [Memory.risesFrom, Bool.and_eq_true, decide_eq_true_eq] at h
    simp only [Memory.writeByte]
    split
    · simp only [Memory.risesFrom, Bool.and_eq_true, decide_eq_true_eq]; exact ⟨ha, by omega, h.2⟩
    · split
      · subst_vars; simpa [Memory.risesFrom] using h
      · simp only [Memory.risesFrom, Bool.and_eq_true, decide_eq_true_eq]
        exact ⟨h.1, ih h.2 (by omega)⟩

theorem Memory.mem_writeByte {m : Memory} {a : Nat} {v : Byte} {c : Host.Cell} (h : c ∈ m.writeByte a v) :
    c = (a, v) ∨ c ∈ m := by
  induction m with
  | nil => simpa [Memory.writeByte] using h
  | cons d rest ih =>
    simp only [Memory.writeByte] at h
    split at h
    · simpa using h
    · split at h
      · rcases List.mem_cons.1 h with h | h
        · exact .inl h
        · exact .inr (List.mem_cons_of_mem _ h)
      · rcases List.mem_cons.1 h with h | h
        · exact .inr (h ▸ List.mem_cons_self)
        · exact (ih h).imp id (List.mem_cons_of_mem _)

/-- Storing a byte inside the address space keeps the canonical form. -/
theorem Memory.wf_writeByte {m : Memory} {a : Nat} {v : Byte} (h : m.wf = true) (ha : a < 4294967296) :
    (m.writeByte a v).wf = true := by
  simp only [Memory.wf, Bool.and_eq_true, List.all_eq_true, decide_eq_true_eq] at h ⊢
  refine ⟨Memory.risesFrom_writeByte h.1 (Nat.zero_le a), fun c hc => ?_⟩
  rcases Memory.mem_writeByte hc with rfl | hc
  · exact ha
  · exact h.2 c hc

/-- Storing a word inside the address space keeps the canonical form. -/
theorem Memory.wf_writeWord {e : Endian} {m : Memory} {a : Nat} {v : Word} (h : m.wf = true) (ha : a + 3 < 4294967296) :
    (m.writeWord e a v).wf = true :=
  Memory.wf_writeByte (Memory.wf_writeByte (Memory.wf_writeByte (Memory.wf_writeByte h (by omega)) (by omega))
    (by omega)) ha

/-- The empty memory, `State.reset`'s, has the canonical form. -/
theorem Memory.wf_nil : Memory.wf [] = true := rfl

/-- Reading a byte after a word is stored: its four bytes, every other byte as before. -/
theorem Memory.readByte_writeWord (e : Endian) (m : Memory) (a b : Nat) (v : Word) :
    (m.writeWord e a v).readByte b =
      if b = a + 3 then some (byteOfWord e v 3) else if b = a + 2 then some (byteOfWord e v 2)
      else if b = a + 1 then some (byteOfWord e v 1) else if b = a then some (byteOfWord e v 0) else m.readByte b := by
  simp [Memory.writeWord, Memory.readByte_writeByte]

theorem Memory.readByte_writeWord_outside (e : Endian) (m : Memory) (a b : Nat) (v : Word) (h : b < a ∨ a + 3 < b) :
    (m.writeWord e a v).readByte b = m.readByte b := by
  rw [Memory.readByte_writeWord]
  repeat rw [if_neg (by omega)]

/-- A word is its four bytes, in either byte order. -/
theorem wordOfBytes_byteOfWord (e : Endian) (v : Word) :
    wordOfBytes e (byteOfWord e v 0) (byteOfWord e v 1) (byteOfWord e v 2) (byteOfWord e v 3) = v := by
  apply BitVec.eq_of_getLsbD_eq
  intro i hi
  cases e <;>
  · simp only [wordOfBytes, byteOfWord, BitVec.getLsbD_append, BitVec.getLsbD_extractLsb']
    interval_cases i <;> simp

/-- The word just stored is the word read, in either byte order (R39). -/
theorem Memory.readWord_writeWord_same (e : Endian) (m : Memory) (a : Nat) (v : Word) :
    (m.writeWord e a v).readWord e a = some v := by
  simp [Memory.readWord, Memory.readByte_writeWord, wordOfBytes_byteOfWord]

/-- A word four or more bytes away reads as before (R35). -/
theorem Memory.readWord_writeWord_other (e e' : Endian) (m : Memory) (a b : Nat) (v : Word) (h : b + 4 ≤ a ∨ a + 4 ≤ b) :
    (m.writeWord e a v).readWord e' b = m.readWord e' b := by
  unfold Memory.readWord
  simp only [Memory.readByte_writeWord_outside e m a b v (by omega),
    Memory.readByte_writeWord_outside e m a (b + 1) v (by omega),
    Memory.readByte_writeWord_outside e m a (b + 2) v (by omega),
    Memory.readByte_writeWord_outside e m a (b + 3) v (by omega)]

/-- The alignment test says what it should: the address is a multiple of 4 (R33). -/
theorem isAligned_iff (a : Word) : isAligned a = true ↔ a.toNat % 4 = 0 := by
  unfold isAligned
  simp [← BitVec.toNat_inj, BitVec.extractLsb'_toNat]

/-- An aligned word lies wholly inside the address space. -/
theorem aligned_word_fits {a : Word} (h : isAligned a = true) : a.toNat + 3 < 4294967296 := by
  have h1 := (isAligned_iff a).1 h
  have h2 := a.isLt
  omega

end Sys2Proof.Machine
end

