-- ==== Sys2Proof/Laws/State.lean ====
section
/-! SUPPORT. One lemma per field per state update, and what a register holds after a write. -/

namespace Sys2Proof.Machine

@[simp] theorem State.setPc_x (s : State) (t : Word) : (s.setPc t).x = s.x := rfl
@[simp] theorem State.setPc_pc (s : State) (t : Word) : (s.setPc t).pc = t := rfl
@[simp] theorem State.setPc_mem (s : State) (t : Word) : (s.setPc t).mem = s.mem := rfl
@[simp] theorem State.setPc_status (s : State) (t : Word) : (s.setPc t).status = s.status := rfl
@[simp] theorem State.setPc_launch (s : State) (t : Word) : (s.setPc t).launch = s.launch := rfl
@[simp] theorem State.setPc_regCell (s : State) (t : Word) (r : RegNum) : (s.setPc t).regCell r = s.regCell r := rfl

@[simp] theorem State.advance_x (s : State) : s.advance.x = s.x := rfl
@[simp] theorem State.advance_pc (s : State) : s.advance.pc = nextPc s.pc := rfl
@[simp] theorem State.advance_mem (s : State) : s.advance.mem = s.mem := rfl
@[simp] theorem State.advance_status (s : State) : s.advance.status = s.status := rfl
@[simp] theorem State.advance_launch (s : State) : s.advance.launch = s.launch := rfl
@[simp] theorem State.advance_regCell (s : State) (r : RegNum) : s.advance.regCell r = s.regCell r := rfl

@[simp] theorem State.takeFault_x (s : State) (c : Cause) : (s.takeFault c).x = s.x := rfl
@[simp] theorem State.takeFault_pc (s : State) (c : Cause) : (s.takeFault c).pc = s.pc := rfl
@[simp] theorem State.takeFault_mem (s : State) (c : Cause) : (s.takeFault c).mem = s.mem := rfl
@[simp] theorem State.takeFault_status (s : State) (c : Cause) : (s.takeFault c).status = .faulted c := rfl
@[simp] theorem State.takeFault_launch (s : State) (c : Cause) : (s.takeFault c).launch = s.launch := rfl
@[simp] theorem State.takeFault_regCell (s : State) (c : Cause) (r : RegNum) :
    (s.takeFault c).regCell r = s.regCell r := rfl

@[simp] theorem State.halt_x (s : State) : s.halt.x = s.x := rfl
@[simp] theorem State.halt_pc (s : State) : s.halt.pc = s.pc := rfl
@[simp] theorem State.halt_mem (s : State) : s.halt.mem = s.mem := rfl
@[simp] theorem State.halt_status (s : State) : s.halt.status = .halted := rfl
@[simp] theorem State.halt_launch (s : State) : s.halt.launch = s.launch := rfl
@[simp] theorem State.halt_regCell (s : State) (r : RegNum) : s.halt.regCell r = s.regCell r := rfl

@[simp] theorem State.setMem_regCell (s : State) (m : Memory) (r : RegNum) :
    ({ s with mem := m } : State).regCell r = s.regCell r := rfl

@[simp] theorem State.writeReg_pc (s : State) (r : RegNum) (v : Word) : (s.writeReg r v).pc = s.pc := by
  unfold State.writeReg; split <;> rfl
@[simp] theorem State.writeReg_mem (s : State) (r : RegNum) (v : Word) : (s.writeReg r v).mem = s.mem := by
  unfold State.writeReg; split <;> rfl
@[simp] theorem State.writeReg_status (s : State) (r : RegNum) (v : Word) : (s.writeReg r v).status = s.status := by
  unfold State.writeReg; split <;> rfl
@[simp] theorem State.writeReg_launch (s : State) (r : RegNum) (v : Word) : (s.writeReg r v).launch = s.launch := by
  unfold State.writeReg; split <;> rfl

@[simp] theorem State.regCell_zero (s : State) : s.regCell 0#5 = .value 0#32 := by simp [State.regCell]

/-- What each register holds after one is written; register 0 discards the write (R13). -/
theorem State.regCell_writeReg (s : State) (r q : RegNum) (v : Word) :
    (s.writeReg r v).regCell q = if q = r ∧ r ≠ 0#5 then .value v else s.regCell q := by
  by_cases hr : r = 0#5
  · simp [State.writeReg, hr]
  · by_cases hq : q = 0#5
    · subst hq; simp [Ne.symm hr]
    · simp only [State.writeReg, hr, State.regCell, hq, if_false, Vector.getElem_set, BitVec.toNat_inj,
        eq_comm (a := q), ne_eq, not_false_eq_true, and_true]

@[simp] theorem State.writeResult_pc (s : State) (r : RegNum) (v : Word) : (s.writeResult r v).pc = nextPc s.pc := by
  simp [State.writeResult]
@[simp] theorem State.writeResult_mem (s : State) (r : RegNum) (v : Word) : (s.writeResult r v).mem = s.mem := by
  simp [State.writeResult]
@[simp] theorem State.writeResult_status (s : State) (r : RegNum) (v : Word) :
    (s.writeResult r v).status = s.status := by simp [State.writeResult]
@[simp] theorem State.writeResult_launch (s : State) (r : RegNum) (v : Word) :
    (s.writeResult r v).launch = s.launch := by simp [State.writeResult]
theorem State.regCell_writeResult (s : State) (r q : RegNum) (v : Word) :
    (s.writeResult r v).regCell q = if q = r ∧ r ≠ 0#5 then .value v else s.regCell q := by
  simp [State.writeResult, State.regCell_writeReg]

@[simp] theorem State.reset_pc : State.reset.pc = 0x00400000#32 := rfl
@[simp] theorem State.reset_mem : State.reset.mem = [] := rfl
@[simp] theorem State.reset_status : State.reset.status = .running := rfl
@[simp] theorem State.reset_launch : State.reset.launch = Config.resetLaunch := rfl

@[simp] theorem State.atLaunch_x (l : Launch) (r : List (RegNum × Word)) (m : List (Word × Word)) :
    (State.atLaunch l r m).x = launchRegs r := rfl
@[simp] theorem State.atLaunch_pc (l : Launch) (r : List (RegNum × Word)) (m : List (Word × Word)) :
    (State.atLaunch l r m).pc = l.textBase := rfl
@[simp] theorem State.atLaunch_mem (l : Launch) (r : List (RegNum × Word)) (m : List (Word × Word)) :
    (State.atLaunch l r m).mem = launchMem l.endian m := rfl
@[simp] theorem State.atLaunch_status (l : Launch) (r : List (RegNum × Word)) (m : List (Word × Word)) :
    (State.atLaunch l r m).status = .running := rfl
@[simp] theorem State.atLaunch_launch (l : Launch) (r : List (RegNum × Word)) (m : List (Word × Word)) :
    (State.atLaunch l r m).launch = l := rfl

end Sys2Proof.Machine
end

