-- ==== Sys2Proof/Laws/Ops.lean ====
section
/-! SUPPORT. For each shared operation, once, everything it can answer. -/

namespace Sys2Proof.Machine

/-! ## Registers -/

theorem State.readReg_eq_ok {s : State} {r : RegNum} {v : Word} : s.readReg r = .ok v ↔ s.regCell r = .value v := by
  unfold State.readReg
  cases s.regCell r <;> simp

theorem State.readReg_eq_error {s : State} {r : RegNum} {c : Cause} :
    s.readReg r = .error c ↔ s.regCell r = .unwritten ∧ c = .unwrittenRegisterRead s.pc r := by
  unfold State.readReg
  cases s.regCell r <;> simp [eq_comm]

/-! ## Completing an instruction -/

@[simp] theorem State.complete_ok (s t : State) : s.complete (.ok t) = .next t := rfl
@[simp] theorem State.complete_error (s : State) (c : Cause) : s.complete (.error c) = .next (s.takeFault c) := rfl

/-- An instruction that completes its rule has its writes, or took the fault it raised. -/
theorem State.complete_next {s t : State} {r : Checked State} (h : s.complete r = .next t) :
    r = .ok t ∨ ∃ c, r = .error c ∧ t = s.takeFault c := by
  cases r with
  | ok u => exact .inl (by simpa using h)
  | error c => exact .inr ⟨c, rfl, by simpa using h.symm⟩

/-- What a checked computation in two parts can answer. -/
theorem checked_bind_ok {α β : Type} {x : Checked α} {f : α → Checked β} {b : β} (h : (x >>= f) = .ok b) :
    ∃ a, x = .ok a ∧ f a = .ok b := by
  cases x with
  | ok a => exact ⟨a, rfl, h⟩
  | error c => cases h

theorem checked_bind_error {α β : Type} {x : Checked α} {f : α → Checked β} {c : Cause} (h : (x >>= f) = .error c) :
    x = .error c ∨ ∃ a, x = .ok a ∧ f a = .error c := by
  cases x with
  | ok a => exact .inr ⟨a, rfl, h⟩
  | error d => cases h; exact .inl rfl

/-! ## The instruction shapes -/

/-- A two-source form whose registers hold values and whose function answers `v` writes `v`. -/
theorem State.regReg_ok {s : State} {rd rs rt : RegNum} {f : Word → Word → Checked Word} {a b v : Word}
    (ha : s.regCell rs = .value a) (hb : s.regCell rt = .value b) (hf : f a b = .ok v) :
    s.regReg rd rs rt f = .next (s.writeResult rd v) := by
  unfold State.regReg
  rw [State.readReg_eq_ok.2 ha, State.readReg_eq_ok.2 hb]
  simp [bind, Except.bind, hf, pure, Except.pure]

/-- Everything a two-source form can answer. -/
theorem State.regReg_next {s t : State} {rd rs rt : RegNum} {f : Word → Word → Checked Word}
    (h : s.regReg rd rs rt f = .next t) :
    (∃ a b v, s.regCell rs = .value a ∧ s.regCell rt = .value b ∧ f a b = .ok v ∧ t = s.writeResult rd v) ∨
      ∃ c, t = s.takeFault c ∧
        (s.regCell rs = .unwritten ∧ c = .unwrittenRegisterRead s.pc rs ∨
          ∃ a, s.regCell rs = .value a ∧
            (s.regCell rt = .unwritten ∧ c = .unwrittenRegisterRead s.pc rt ∨
              ∃ b, s.regCell rt = .value b ∧ f a b = .error c)) := by
  rcases State.complete_next h with h | ⟨c, hc, rfl⟩
  · obtain ⟨a, ha, h⟩ := checked_bind_ok h
    obtain ⟨b, hb, h⟩ := checked_bind_ok h
    obtain ⟨v, hv, h⟩ := checked_bind_ok h
    exact .inl ⟨a, b, v, State.readReg_eq_ok.1 ha, State.readReg_eq_ok.1 hb, hv, (Except.ok.inj h).symm⟩
  · refine .inr ⟨c, rfl, ?_⟩
    rcases checked_bind_error hc with h | ⟨a, ha, h⟩
    · exact .inl (State.readReg_eq_error.1 h)
    · refine .inr ⟨a, State.readReg_eq_ok.1 ha, ?_⟩
      rcases checked_bind_error h with h | ⟨b, hb, h⟩
      · exact .inl (State.readReg_eq_error.1 h)
      · rcases checked_bind_error h with h | ⟨v, -, h⟩
        · exact .inr ⟨b, State.readReg_eq_ok.1 hb, h⟩
        · cases h

/-- A one-source form whose register holds a value and whose function answers `v` writes `v`. -/
theorem State.regUnary_ok {s : State} {rd rs : RegNum} {f : Word → Checked Word} {a v : Word}
    (ha : s.regCell rs = .value a) (hf : f a = .ok v) : s.regUnary rd rs f = .next (s.writeResult rd v) := by
  unfold State.regUnary
  rw [State.readReg_eq_ok.2 ha]
  simp [bind, Except.bind, hf, pure, Except.pure]

/-- Everything a one-source form can answer. -/
theorem State.regUnary_next {s t : State} {rd rs : RegNum} {f : Word → Checked Word}
    (h : s.regUnary rd rs f = .next t) :
    (∃ a v, s.regCell rs = .value a ∧ f a = .ok v ∧ t = s.writeResult rd v) ∨
      ∃ c, t = s.takeFault c ∧
        (s.regCell rs = .unwritten ∧ c = .unwrittenRegisterRead s.pc rs ∨
          ∃ a, s.regCell rs = .value a ∧ f a = .error c) := by
  rcases State.complete_next h with h | ⟨c, hc, rfl⟩
  · obtain ⟨a, ha, h⟩ := checked_bind_ok h
    obtain ⟨v, hv, h⟩ := checked_bind_ok h
    exact .inl ⟨a, v, State.readReg_eq_ok.1 ha, hv, (Except.ok.inj h).symm⟩
  · refine .inr ⟨c, rfl, ?_⟩
    rcases checked_bind_error hc with h | ⟨a, ha, h⟩
    · exact .inl (State.readReg_eq_error.1 h)
    · rcases checked_bind_error h with h | ⟨v, -, h⟩
      · exact .inr ⟨a, State.readReg_eq_ok.1 ha, h⟩
      · cases h

/-- Everything a conditional branch can answer. -/
theorem State.branchIf_next {s t : State} {rs rt : RegNum} {imm : Imm} {taken : Word → Word → Bool}
    (h : s.branchIf rs rt imm taken = .next t) :
    (∃ a b, s.regCell rs = .value a ∧ s.regCell rt = .value b ∧
        t = s.setPc (if taken a b then branchTarget s.pc imm else nextPc s.pc)) ∨
      ∃ c, t = s.takeFault c ∧
        (s.regCell rs = .unwritten ∧ c = .unwrittenRegisterRead s.pc rs ∨
          ∃ a, s.regCell rs = .value a ∧ s.regCell rt = .unwritten ∧ c = .unwrittenRegisterRead s.pc rt) := by
  rcases State.complete_next h with h | ⟨c, hc, rfl⟩
  · obtain ⟨a, ha, h⟩ := checked_bind_ok h
    obtain ⟨b, hb, h⟩ := checked_bind_ok h
    exact .inl ⟨a, b, State.readReg_eq_ok.1 ha, State.readReg_eq_ok.1 hb, (Except.ok.inj h).symm⟩
  · refine .inr ⟨c, rfl, ?_⟩
    rcases checked_bind_error hc with h | ⟨a, ha, h⟩
    · exact .inl (State.readReg_eq_error.1 h)
    · rcases checked_bind_error h with h | ⟨b, -, h⟩
      · exact .inr ⟨a, State.readReg_eq_ok.1 ha, State.readReg_eq_error.1 h⟩
      · cases h

/-- Everything `sw` can answer. -/
theorem execSw_next {s t : State} {rt rs : RegNum} {imm : Imm} (h : execSw rt rs imm s = .next t) :
    (∃ base v u, s.regCell rs = .value base ∧ s.regCell rt = .value v ∧
        s.memWrite (effectiveAddress base imm) v = .ok u ∧ t = u.advance) ∨
      ∃ c, t = s.takeFault c ∧
        (s.regCell rs = .unwritten ∧ c = .unwrittenRegisterRead s.pc rs ∨
          ∃ base, s.regCell rs = .value base ∧
            (s.regCell rt = .unwritten ∧ c = .unwrittenRegisterRead s.pc rt ∨
              ∃ v, s.regCell rt = .value v ∧ s.memWrite (effectiveAddress base imm) v = .error c)) := by
  rcases State.complete_next h with h | ⟨c, hc, rfl⟩
  · obtain ⟨base, ha, h⟩ := checked_bind_ok h
    obtain ⟨v, hb, h⟩ := checked_bind_ok h
    obtain ⟨u, hu, h⟩ := checked_bind_ok h
    exact .inl ⟨base, v, u, State.readReg_eq_ok.1 ha, State.readReg_eq_ok.1 hb, hu, (Except.ok.inj h).symm⟩
  · refine .inr ⟨c, rfl, ?_⟩
    rcases checked_bind_error hc with h | ⟨base, ha, h⟩
    · exact .inl (State.readReg_eq_error.1 h)
    · refine .inr ⟨base, State.readReg_eq_ok.1 ha, ?_⟩
      rcases checked_bind_error h with h | ⟨v, hb, h⟩
      · exact .inl (State.readReg_eq_error.1 h)
      · rcases checked_bind_error h with h | ⟨u, -, h⟩
        · exact .inr ⟨v, State.readReg_eq_ok.1 hb, h⟩
        · cases h

/-- Everything the arithmetic law can answer. -/
theorem State.narrow_cases (s : State) (S : Int) :
    (signedOverflow S = true ∧ s.launch.overflow = .fault ∧ s.narrow S = .error (.integerOverflow s.pc)) ∨
      (¬(signedOverflow S = true ∧ s.launch.overflow = .fault) ∧ s.narrow S = .ok (wrap32 S)) := by
  unfold State.narrow
  split
  · exact .inl ⟨‹_ ∧ _›.1, ‹_ ∧ _›.2, rfl⟩
  · exact .inr ⟨‹_›, rfl⟩

/-! ## Memory -/

/-- Everything a load can answer, in the order of the tests (R34). -/
theorem State.memRead_cases (s : State) (a : Word) :
    (isAligned a = false ∧ s.memRead a = .error (.loadMisaligned s.pc a)) ∨
    (isAligned a = true ∧ s.launch.inData a.toNat = false ∧ s.memRead a = .error (.loadNotAdmitted s.pc a)) ∨
    (isAligned a = true ∧ s.launch.inData a.toNat = true ∧ s.mem.readWord s.launch.endian a.toNat = none ∧
      s.memRead a = .error (.unwrittenMemoryRead s.pc a)) ∨
    (isAligned a = true ∧ s.launch.inData a.toNat = true ∧
      ∃ v, s.mem.readWord s.launch.endian a.toNat = some v ∧ s.memRead a = .ok v) := by
  unfold State.memRead
  cases h1 : isAligned a
  · exact .inl ⟨rfl, by simp⟩
  · cases h2 : s.launch.inData a.toNat
    · exact .inr (.inl ⟨rfl, rfl, by simp⟩)
    · cases h3 : s.mem.readWord s.launch.endian a.toNat
      · exact .inr (.inr (.inl ⟨rfl, rfl, rfl, by simp⟩))
      · exact .inr (.inr (.inr ⟨rfl, rfl, _, rfl, by simp⟩))

/-- Everything a store can answer, in the order of the tests (R35). -/
theorem State.memWrite_cases (s : State) (a v : Word) :
    (isAligned a = false ∧ s.memWrite a v = .error (.storeMisaligned s.pc a)) ∨
    (isAligned a = true ∧ s.launch.inData a.toNat = false ∧ s.memWrite a v = .error (.storeNotAdmitted s.pc a)) ∨
    (isAligned a = true ∧ s.launch.inData a.toNat = true ∧
      s.memWrite a v = .ok { s with mem := s.mem.writeWord s.launch.endian a.toNat v }) := by
  unfold State.memWrite
  cases h1 : isAligned a
  · exact .inl ⟨rfl, by simp⟩
  · cases h2 : s.launch.inData a.toNat
    · exact .inr (.inl ⟨rfl, rfl, by simp⟩)
    · exact .inr (.inr ⟨rfl, rfl, by simp⟩)

/-! ## Fetch and step -/

/-- Everything a fetch can answer (R36). -/
theorem State.fetch_cases (s : State) (a : Word) :
    (isAligned a = false ∧ s.fetch a = .error (.fetchMisaligned a)) ∨
    (isAligned a = true ∧ s.fetch a = .error (.fetchNotAdmitted a)) ∨
    (isAligned a = true ∧ s.launch.inText a.toNat = true ∧
      ∃ w, s.launch.prog[(a.toNat - s.launch.textBase.toNat) / 4]? = some w ∧ s.fetch a = .ok w) := by
  unfold State.fetch
  cases h1 : isAligned a
  · exact .inl ⟨rfl, by simp⟩
  · cases h2 : s.launch.inText a.toNat
    · exact .inr (.inl ⟨rfl, by simp⟩)
    · cases h3 : s.launch.prog[(a.toNat - s.launch.textBase.toNat) / 4]?
      · exact .inr (.inl ⟨rfl, by simp⟩)
      · exact .inr (.inr ⟨rfl, rfl, _, rfl, by simp⟩)

/-- An instruction is fetched only where a word decodes to it. -/
theorem State.nextInstr_eq_ok {s : State} {i : Instr} (h : s.nextInstr = .ok i) :
    ∃ w, s.fetch s.pc = .ok w ∧ decode w = .ok i := by
  obtain ⟨w, hw, h⟩ := checked_bind_ok h
  refine ⟨w, hw, ?_⟩
  split at h
  · rename_i k hk; rw [hk, Except.ok.inj h]
  · cases h

theorem State.nextInstr_eq_error {s : State} {c : Cause} (h : s.nextInstr = .error c) :
    s.fetch s.pc = .error c ∨ ∃ w e, s.fetch s.pc = .ok w ∧ decode w = .error e ∧ c = .reservedInstruction s.pc w := by
  rcases checked_bind_error h with h | ⟨w, hw, h⟩
  · exact .inl h
  · refine .inr ⟨w, ?_⟩
    split at h
    · cases h
    · rename_i e he; exact ⟨e, hw, he, (Except.error.inj h).symm⟩

/-- Everything a step that answers a next state can do (R26). -/
theorem step_next {s t : State} (h : step s = .next t) :
    s.status = .running ∧
      ((s.atTextEnd = true ∧ t = s.halt) ∨
        (s.atTextEnd = false ∧ ∃ c, s.nextInstr = .error c ∧ t = s.takeFault c) ∨
        (s.atTextEnd = false ∧ ∃ i, s.nextInstr = .ok i ∧ exec i s = .next t)) := by
  unfold step at h
  split at h
  · cases h
  · cases h
  · rename_i hs
    refine ⟨hs, ?_⟩
    cases he : s.atTextEnd
    · rw [he] at h
      cases hn : s.nextInstr with
      | error c => rw [hn] at h; exact .inr (.inl ⟨rfl, c, rfl, by simpa using h.symm⟩)
      | ok i => rw [hn] at h; exact .inr (.inr ⟨rfl, i, rfl, by simpa using h⟩)
    · rw [he] at h
      exact .inl ⟨rfl, by simpa using h.symm⟩

end Sys2Proof.Machine
end

