-- ==== Sys2Proof/Laws/Exec.lean ====
section
/-! SUPPORT. Everything an instruction can do, said once for all 21: it takes a fault and changes only the status, or it
writes one register and advances, or it stores one word and advances, or it moves the `pc`, or it links and jumps. -/

namespace Sys2Proof.Machine

/-- The next states an instruction can answer. -/
inductive Effect (i : Instr) (s : State) : State → Prop where
  /-- A fault of the instruction at `pc`. -/
  | fault (c : Cause) (hpc : c.pc = s.pc) : Effect i s (s.takeFault c)
  /-- One register written; the instruction is no transfer. -/
  | result (r : RegNum) (v : Word)
      (form : (∃ rs rt, i = .add r rs rt ∨ i = .sub r rs rt ∨ i = .and r rs rt ∨ i = .or r rs rt ∨ i = .xor r rs rt ∨
          i = .nor r rs rt) ∨ (∃ rt sh, i = .sll r rt sh ∨ i = .srl r rt sh ∨ i = .sra r rt sh) ∨
        (∃ rs imm, i = .addi r rs imm ∨ i = .andi r rs imm ∨ i = .ori r rs imm ∨ i = .xori r rs imm ∨ i = .lw r rs imm) ∨
        ∃ imm, i = .lui r imm) : Effect i s (s.writeResult r v)
  /-- One word stored, at an aligned address of `DATA_REGION`. -/
  | store (rt rs : RegNum) (imm : Imm) (base v : Word) (form : i = .sw rt rs imm) (hbase : s.regCell rs = .value base)
      (hv : s.regCell rt = .value v) (haligned : isAligned (effectiveAddress base imm) = true)
      (hdata : s.launch.inData (effectiveAddress base imm).toNat = true) :
      Effect i s ({ s with mem := s.mem.writeWord s.launch.endian (effectiveAddress base imm).toNat v } : State).advance
  /-- A conditional branch, taken or not. -/
  | branch (rs rt : RegNum) (imm : Imm) (t : Word) (form : i = .beq rs rt imm ∨ i = .bne rs rt imm)
      (target : t = branchTarget s.pc imm ∨ t = nextPc s.pc) : Effect i s (s.setPc t)
  /-- `j`. -/
  | jump (addr : JumpField) (form : i = .j addr) : Effect i s (s.setPc (jumpTarget s.pc addr))
  /-- `jr`. -/
  | jumpReg (rs : RegNum) (t : Word) (form : i = .jr rs) (value : s.regCell rs = .value t) : Effect i s (s.setPc t)
  /-- `jal`. -/
  | link (addr : JumpField) (form : i = .jal addr) :
      Effect i s ((s.writeReg 31#5 (nextPc s.pc)).setPc (jumpTarget s.pc addr))

theorem State.narrow_error_pc {s : State} {S : Int} {c : Cause} (h : s.narrow S = .error c) : c.pc = s.pc := by
  rcases s.narrow_cases S with ⟨-, -, h'⟩ | ⟨-, h'⟩
  · cases h'.symm.trans h; rfl
  · cases h'.symm.trans h

theorem State.memRead_error_pc {s : State} {a : Word} {c : Cause} (h : s.memRead a = .error c) : c.pc = s.pc := by
  rcases s.memRead_cases a with ⟨-, h'⟩ | ⟨-, -, h'⟩ | ⟨-, -, -, h'⟩ | ⟨-, -, v, -, h'⟩ <;>
  · cases h'.symm.trans h; try rfl

theorem State.memWrite_error_pc {s : State} {a v : Word} {c : Cause} (h : s.memWrite a v = .error c) : c.pc = s.pc := by
  rcases s.memWrite_cases a v with ⟨-, h'⟩ | ⟨-, -, h'⟩ | ⟨-, -, h'⟩ <;>
  · cases h'.symm.trans h; try rfl

theorem effect_of_regReg {i : Instr} {s t : State} {rd rs rt : RegNum} {f : Word → Word → Checked Word}
    (form : ∃ rs rt, i = .add rd rs rt ∨ i = .sub rd rs rt ∨ i = .and rd rs rt ∨ i = .or rd rs rt ∨ i = .xor rd rs rt ∨
      i = .nor rd rs rt) (hf : ∀ a b c, f a b = .error c → c.pc = s.pc) (h : s.regReg rd rs rt f = .next t) :
    Effect i s t := by
  rcases State.regReg_next h with ⟨a, b, v, -, -, -, rfl⟩ | ⟨c, rfl, ⟨-, rfl⟩ | ⟨a, -, ⟨-, rfl⟩ | ⟨b, -, hc⟩⟩⟩
  · exact .result rd v (.inl form)
  · exact .fault _ rfl
  · exact .fault _ rfl
  · exact .fault _ (hf a b c hc)

theorem effect_of_regUnary {i : Instr} {s t : State} {rd rs : RegNum} {f : Word → Checked Word}
    (form : (∃ rt sh, i = .sll rd rt sh ∨ i = .srl rd rt sh ∨ i = .sra rd rt sh) ∨
        (∃ rs imm, i = .addi rd rs imm ∨ i = .andi rd rs imm ∨ i = .ori rd rs imm ∨ i = .xori rd rs imm ∨ i = .lw rd rs imm) ∨
        ∃ imm, i = .lui rd imm) (hf : ∀ a c, f a = .error c → c.pc = s.pc) (h : s.regUnary rd rs f = .next t) :
    Effect i s t := by
  rcases State.regUnary_next h with ⟨a, v, -, -, rfl⟩ | ⟨c, rfl, ⟨-, rfl⟩ | ⟨a, -, hc⟩⟩
  · exact .result rd v (.inr form)
  · exact .fault _ rfl
  · exact .fault _ (hf a c hc)

theorem effect_of_branchIf {i : Instr} {s t : State} {rs rt : RegNum} {imm : Imm} {taken : Word → Word → Bool}
    (form : i = .beq rs rt imm ∨ i = .bne rs rt imm) (h : s.branchIf rs rt imm taken = .next t) : Effect i s t := by
  rcases State.branchIf_next h with ⟨a, b, -, -, rfl⟩ | ⟨c, rfl, ⟨-, rfl⟩ | ⟨a, -, -, rfl⟩⟩
  · exact .branch rs rt imm _ form (by split <;> simp)
  · exact .fault _ rfl
  · exact .fault _ rfl

/-- Everything an instruction can do. -/
theorem exec_effect {i : Instr} {s t : State} (h : exec i s = .next t) : Effect i s t := by
  cases i with
  | sll rd rt sh => exact effect_of_regUnary (.inl ⟨rt, sh, by simp⟩) (fun _ _ h => by cases h) h
  | srl rd rt sh => exact effect_of_regUnary (.inl ⟨rt, sh, by simp⟩) (fun _ _ h => by cases h) h
  | sra rd rt sh => exact effect_of_regUnary (.inl ⟨rt, sh, by simp⟩) (fun _ _ h => by cases h) h
  | jr rs =>
    rcases State.complete_next h with h' | ⟨c, hc, rfl⟩
    · obtain ⟨a, ha, h'⟩ := checked_bind_ok h'
      cases Except.ok.inj h'
      exact .jumpReg rs a rfl (State.readReg_eq_ok.1 ha)
    · rcases checked_bind_error hc with hc | ⟨a, -, hc⟩
      · obtain ⟨-, rfl⟩ := State.readReg_eq_error.1 hc
        exact .fault _ rfl
      · cases hc
  | add rd rs rt => exact effect_of_regReg ⟨rs, rt, by simp⟩ (fun _ _ _ => State.narrow_error_pc) h
  | sub rd rs rt => exact effect_of_regReg ⟨rs, rt, by simp⟩ (fun _ _ _ => State.narrow_error_pc) h
  | and rd rs rt => exact effect_of_regReg ⟨rs, rt, by simp⟩ (fun _ _ _ h => by cases h) h
  | or rd rs rt => exact effect_of_regReg ⟨rs, rt, by simp⟩ (fun _ _ _ h => by cases h) h
  | xor rd rs rt => exact effect_of_regReg ⟨rs, rt, by simp⟩ (fun _ _ _ h => by cases h) h
  | nor rd rs rt => exact effect_of_regReg ⟨rs, rt, by simp⟩ (fun _ _ _ h => by cases h) h
  | j addr => cases h; exact .jump addr rfl
  | jal addr => cases h; exact .link addr rfl
  | beq rs rt imm => exact effect_of_branchIf (.inl rfl) h
  | bne rs rt imm => exact effect_of_branchIf (.inr rfl) h
  | addi rt rs imm => exact effect_of_regUnary (.inr (.inl ⟨rs, imm, by simp⟩)) (fun _ _ => State.narrow_error_pc) h
  | andi rt rs imm => exact effect_of_regUnary (.inr (.inl ⟨rs, imm, by simp⟩)) (fun _ _ h => by cases h) h
  | ori rt rs imm => exact effect_of_regUnary (.inr (.inl ⟨rs, imm, by simp⟩)) (fun _ _ h => by cases h) h
  | xori rt rs imm => exact effect_of_regUnary (.inr (.inl ⟨rs, imm, by simp⟩)) (fun _ _ h => by cases h) h
  | lui rt imm => cases h; exact .result rt _ (.inr (.inr (.inr ⟨imm, rfl⟩)))
  | lw rt rs imm => exact effect_of_regUnary (.inr (.inl ⟨rs, imm, by simp⟩)) (fun _ _ => State.memRead_error_pc) h
  | sw rt rs imm =>
    rcases execSw_next h with ⟨base, v, u, hb, hv, hu, rfl⟩ | ⟨c, rfl, ⟨-, rfl⟩ | ⟨base, -, ⟨-, rfl⟩ | ⟨v, -, hc⟩⟩⟩
    · rcases s.memWrite_cases (effectiveAddress base imm) v with ⟨-, hw⟩ | ⟨-, -, hw⟩ | ⟨ha, hd, hw⟩
      · cases hw.symm.trans hu
      · cases hw.symm.trans hu
      · cases hw.symm.trans hu
        exact .store rt rs imm base v rfl hb hv ha hd
    · exact .fault _ rfl
    · exact .fault _ rfl
    · exact .fault _ (State.memWrite_error_pc hc)

end Sys2Proof.Machine
end

