-- ==== Sys2Proof/Laws/PerInstr.lean ====
section
/-! SUPPORT. Statements about every instruction, one lemma per constructor. The family `EncodesRow`: the word of an
instruction matches its own row of the decoder table (R72), whatever its operands are. -/

namespace Sys2Proof.Laws

/-- The instruction's word matches the row of R72 that bears its mnemonic. -/
def EncodesRow.Statement (i : Instr) : Prop :=
  ∃ r ∈ decoderTable, r.mnemonic = i.mnemonic ∧ encode i &&& r.mask = r.pattern

/-- The shift rows keep `op`, `rs` and `funct`. -/
theorem rWord_and_shiftMask (rt rd : RegNum) (shamt : Shamt) (funct : BitVec 6) :
    rWord 0#5 rt rd shamt funct &&& 0xFFE0003F#32 = funct.zeroExtend 32 := by
  apply BitVec.eq_of_getLsbD_eq
  intro k hk
  simp only [BitVec.getLsbD_and, rWord_getLsbD]
  interval_cases k <;> simp

/-- The three-register rows keep `op`, `shamt` and `funct`. -/
theorem rWord_and_regMask (rs rt rd : RegNum) (funct : BitVec 6) :
    rWord rs rt rd 0#5 funct &&& 0xFC0007FF#32 = funct.zeroExtend 32 := by
  apply BitVec.eq_of_getLsbD_eq
  intro k hk
  simp only [BitVec.getLsbD_and, rWord_getLsbD]
  interval_cases k <;> simp

/-- The `jr` row keeps every field but `rs`. -/
theorem rWord_and_jrMask (rs : RegNum) (funct : BitVec 6) :
    rWord rs 0#5 0#5 0#5 funct &&& 0xFC1FFFFF#32 = funct.zeroExtend 32 := by
  apply BitVec.eq_of_getLsbD_eq
  intro k hk
  simp only [BitVec.getLsbD_and, rWord_getLsbD]
  interval_cases k <;> simp

/-- The I-type rows keep `op`. -/
theorem iWord_and_opMask (op : BitVec 6) (rs rt : RegNum) (imm : Imm) :
    iWord op rs rt imm &&& 0xFC000000#32 = op ++ 0#26 := by
  apply BitVec.eq_of_getLsbD_eq
  intro k hk
  simp only [BitVec.getLsbD_and, iWord_getLsbD, BitVec.getLsbD_append]
  interval_cases k <;> simp

/-- The `lui` row keeps `op` and `rs`. -/
theorem iWord_and_luiMask (op : BitVec 6) (rt : RegNum) (imm : Imm) :
    iWord op 0#5 rt imm &&& 0xFFE00000#32 = op ++ 0#26 := by
  apply BitVec.eq_of_getLsbD_eq
  intro k hk
  simp only [BitVec.getLsbD_and, iWord_getLsbD, BitVec.getLsbD_append]
  interval_cases k <;> simp

/-- The J-type rows keep `op`. -/
theorem jWord_and_opMask (op : BitVec 6) (addr : JumpField) : jWord op addr &&& 0xFC000000#32 = op ++ 0#26 := by
  apply BitVec.eq_of_getLsbD_eq
  intro k hk
  simp only [BitVec.getLsbD_and, jWord_getLsbD, BitVec.getLsbD_append]
  interval_cases k <;> simp

theorem EncodesRow.sll (rd rt : RegNum) (shamt : Shamt) : EncodesRow.Statement (.sll rd rt shamt) :=
  ⟨⟨"sll", 0xFFE0003F#32, 0x00000000#32⟩, by decide, rfl, rWord_and_shiftMask rt rd shamt 0#6⟩

theorem EncodesRow.srl (rd rt : RegNum) (shamt : Shamt) : EncodesRow.Statement (.srl rd rt shamt) :=
  ⟨⟨"srl", 0xFFE0003F#32, 0x00000002#32⟩, by decide, rfl, rWord_and_shiftMask rt rd shamt 2#6⟩

theorem EncodesRow.sra (rd rt : RegNum) (shamt : Shamt) : EncodesRow.Statement (.sra rd rt shamt) :=
  ⟨⟨"sra", 0xFFE0003F#32, 0x00000003#32⟩, by decide, rfl, rWord_and_shiftMask rt rd shamt 3#6⟩

theorem EncodesRow.jr (rs : RegNum) : EncodesRow.Statement (.jr rs) :=
  ⟨⟨"jr", 0xFC1FFFFF#32, 0x00000008#32⟩, by decide, rfl, rWord_and_jrMask rs 8#6⟩

theorem EncodesRow.add (rd rs rt : RegNum) : EncodesRow.Statement (.add rd rs rt) :=
  ⟨⟨"add", 0xFC0007FF#32, 0x00000020#32⟩, by decide, rfl, rWord_and_regMask rs rt rd 32#6⟩

theorem EncodesRow.sub (rd rs rt : RegNum) : EncodesRow.Statement (.sub rd rs rt) :=
  ⟨⟨"sub", 0xFC0007FF#32, 0x00000022#32⟩, by decide, rfl, rWord_and_regMask rs rt rd 34#6⟩

theorem EncodesRow.and (rd rs rt : RegNum) : EncodesRow.Statement (.and rd rs rt) :=
  ⟨⟨"and", 0xFC0007FF#32, 0x00000024#32⟩, by decide, rfl, rWord_and_regMask rs rt rd 36#6⟩

theorem EncodesRow.or (rd rs rt : RegNum) : EncodesRow.Statement (.or rd rs rt) :=
  ⟨⟨"or", 0xFC0007FF#32, 0x00000025#32⟩, by decide, rfl, rWord_and_regMask rs rt rd 37#6⟩

theorem EncodesRow.xor (rd rs rt : RegNum) : EncodesRow.Statement (.xor rd rs rt) :=
  ⟨⟨"xor", 0xFC0007FF#32, 0x00000026#32⟩, by decide, rfl, rWord_and_regMask rs rt rd 38#6⟩

theorem EncodesRow.nor (rd rs rt : RegNum) : EncodesRow.Statement (.nor rd rs rt) :=
  ⟨⟨"nor", 0xFC0007FF#32, 0x00000027#32⟩, by decide, rfl, rWord_and_regMask rs rt rd 39#6⟩

theorem EncodesRow.j (addr : JumpField) : EncodesRow.Statement (.j addr) :=
  ⟨⟨"j", 0xFC000000#32, 0x08000000#32⟩, by decide, rfl, jWord_and_opMask 2#6 addr⟩

theorem EncodesRow.jal (addr : JumpField) : EncodesRow.Statement (.jal addr) :=
  ⟨⟨"jal", 0xFC000000#32, 0x0C000000#32⟩, by decide, rfl, jWord_and_opMask 3#6 addr⟩

theorem EncodesRow.beq (rs rt : RegNum) (imm : Imm) : EncodesRow.Statement (.beq rs rt imm) :=
  ⟨⟨"beq", 0xFC000000#32, 0x10000000#32⟩, by decide, rfl, iWord_and_opMask 4#6 rs rt imm⟩

theorem EncodesRow.bne (rs rt : RegNum) (imm : Imm) : EncodesRow.Statement (.bne rs rt imm) :=
  ⟨⟨"bne", 0xFC000000#32, 0x14000000#32⟩, by decide, rfl, iWord_and_opMask 5#6 rs rt imm⟩

theorem EncodesRow.addi (rt rs : RegNum) (imm : Imm) : EncodesRow.Statement (.addi rt rs imm) :=
  ⟨⟨"addi", 0xFC000000#32, 0x20000000#32⟩, by decide, rfl, iWord_and_opMask 8#6 rs rt imm⟩

theorem EncodesRow.andi (rt rs : RegNum) (imm : Imm) : EncodesRow.Statement (.andi rt rs imm) :=
  ⟨⟨"andi", 0xFC000000#32, 0x30000000#32⟩, by decide, rfl, iWord_and_opMask 12#6 rs rt imm⟩

theorem EncodesRow.ori (rt rs : RegNum) (imm : Imm) : EncodesRow.Statement (.ori rt rs imm) :=
  ⟨⟨"ori", 0xFC000000#32, 0x34000000#32⟩, by decide, rfl, iWord_and_opMask 13#6 rs rt imm⟩

theorem EncodesRow.xori (rt rs : RegNum) (imm : Imm) : EncodesRow.Statement (.xori rt rs imm) :=
  ⟨⟨"xori", 0xFC000000#32, 0x38000000#32⟩, by decide, rfl, iWord_and_opMask 14#6 rs rt imm⟩

theorem EncodesRow.lui (rt : RegNum) (imm : Imm) : EncodesRow.Statement (.lui rt imm) :=
  ⟨⟨"lui", 0xFFE00000#32, 0x3C000000#32⟩, by decide, rfl, iWord_and_luiMask 15#6 rt imm⟩

theorem EncodesRow.lw (rt rs : RegNum) (imm : Imm) : EncodesRow.Statement (.lw rt rs imm) :=
  ⟨⟨"lw", 0xFC000000#32, 0x8C000000#32⟩, by decide, rfl, iWord_and_opMask 35#6 rs rt imm⟩

theorem EncodesRow.sw (rt rs : RegNum) (imm : Imm) : EncodesRow.Statement (.sw rt rs imm) :=
  ⟨⟨"sw", 0xFC000000#32, 0xAC000000#32⟩, by decide, rfl, iWord_and_opMask 43#6 rs rt imm⟩

end Sys2Proof.Laws
end

