-- ==== Sys2Proof/Laws/Regions.lean ====
section
/-! SUPPORT. What the three parts of the address space are, as arithmetic on addresses (R5, R22, R31), and what a fetch
and the end test answer there (R36, R173). -/

namespace Sys2Proof

open Sys2Proof.Machine

theorem Launch.inText_iff (l : Launch) (a : Nat) :
    l.inText a = true ↔ l.textBase.toNat ≤ a ∧ a < l.textBase.toNat + 4 * l.prog.length := by
  rw [Launch.inText, decide_eq_true_eq, Launch.textEnd]

theorem Launch.inText_eq_false_iff (l : Launch) (a : Nat) :
    l.inText a = false ↔ ¬(l.textBase.toNat ≤ a ∧ a < l.textBase.toNat + 4 * l.prog.length) := by
  rw [← Launch.inText_iff, Bool.not_eq_true]

theorem Region.contains_iff (r : Region) (a : Nat) :
    r.contains a = true ↔ r.base.toNat ≤ a ∧ a < r.base.toNat + 4 * r.words := by
  rw [Region.contains, decide_eq_true_eq]

/-- A member of `DATA_REGION`: a word address in one of the regions, outside the text (R31). -/
theorem Launch.inData_iff (l : Launch) (a : Nat) :
    l.inData a = true ↔ a % 4 = 0 ∧ (∃ r ∈ l.dataRegion, r.contains a = true) ∧ l.inText a = false := by
  simp only [Launch.inData, Bool.and_eq_true, decide_eq_true_eq, List.any_eq_true, Bool.not_eq_true', and_assoc]

/-- No address is both text and data (R31). -/
theorem Launch.inData_of_inText {l : Launch} {a : Nat} (h : l.inText a = true) : l.inData a = false := by
  simp [Launch.inData, h]

/-- `DATA_REGION` does not depend on the byte order or the policy. -/
theorem Launch.inData_congr {l k : Launch} (hb : l.textBase = k.textBase) (hp : l.prog = k.prog)
    (hd : l.dataRegion = k.dataRegion) (a : Nat) : l.inData a = k.inData a := by
  unfold Launch.inData Launch.inText Launch.textEnd
  rw [hb, hp, hd]

theorem Launch.wf_iff (l : Launch) : l.wf = true ↔ l.textBase.toNat % 4 = 0 ∧
    l.textBase.toNat + 4 * l.prog.length ≤ 4294967296 ∧
    (∀ r ∈ l.dataRegion, r.base.toNat % 4 = 0) ∧ ∀ r ∈ l.dataRegion, r.base.toNat + 4 * r.words ≤ 4294967296 := by
  simp only [Launch.wf, Launch.textAligned, Launch.textFits, Launch.dataAligned, Launch.dataFits, Bool.and_eq_true,
    decide_eq_true_eq, List.all_eq_true, and_assoc]
  rfl

namespace Machine

theorem State.atTextEnd_iff (s : State) :
    s.atTextEnd = true ↔ s.pc.toNat = s.launch.textBase.toNat + 4 * s.launch.prog.length := by
  rw [State.atTextEnd, decide_eq_true_eq, Launch.textEnd]

/-- An aligned address outside the text is not admitted for a fetch (R36). -/
theorem State.fetch_outside {s : State} {a : Word} (ha : isAligned a = true) (h : s.launch.inText a.toNat = false) :
    s.fetch a = .error (.fetchNotAdmitted a) := by
  simp [State.fetch, ha, h]

/-- Word number `k` of the program is fetched from `TEXT_BASE + 4*k` (R22, R36). -/
theorem State.fetch_word {s : State} {a w : Word} {k : Nat} (hb : s.launch.textBase.toNat % 4 = 0)
    (hk : s.launch.prog[k]? = some w) (ha : a.toNat = s.launch.textBase.toNat + 4 * k) : s.fetch a = .ok w := by
  obtain ⟨hlt, -⟩ := List.getElem?_eq_some_iff.1 hk
  have hal : isAligned a = true := (isAligned_iff a).2 (by omega)
  have hin : s.launch.inText a.toNat = true := (Launch.inText_iff _ _).2 ⟨by omega, by omega⟩
  have hidx : (a.toNat - s.launch.textBase.toNat) / 4 = k := by omega
  simp [State.fetch, hal, hin, hidx, hk]

end Machine

end Sys2Proof
end

