-- ==== Sys2Proof/Tests/Slice0.lean ====
section
/-! SUPPORT. The model's own tests: the refusals of WellFormed, the words of spec/ decoded, one-step tests whose expected
values are those of 95_test_vectors.md (the section is named at each), and for every statement with hypotheses a
witness that meets them. A witness says only that the hypotheses can be met; it is no part of a statement's proof. -/

namespace Sys2Proof.Tests

open Sys2Proof.Machine Sys2Proof.Certificates

/-! ## Small states -/

/-- The launch of 95_test_vectors.md 2.4: four words of text, five words of data. -/
def launch4 : Launch where
  textBase := 0x00400000#32
  prog := [0x8C0A0020#32, 0x02328020#32, 0x2268FFF4#32, 0x016D4022#32]
  dataRegion := [⟨0x00000020#32, 1⟩, ⟨0x10000000#32, 4⟩]
  overflow := .fault
  endian := .big

/-- The memory of 95_test_vectors.md 2.4. -/
def mem4 : List (Word × Word) :=
  [(0x00000020#32, 0xCAFEF00D#32), (0x10000000#32, 0x0000000A#32), (0x1000000C#32, 0x00000007#32)]

/-- A state at launch, every register but those given unwritten. -/
def start (regs0 : List (RegNum × Word)) : State := State.atLaunch launch4 regs0 mem4

/-- The same with the policy `wrap`. -/
def startWrap (regs0 : List (RegNum × Word)) : State :=
  State.atLaunch { launch4 with overflow := .wrap } regs0 mem4

/-- A state at launch with the given program and no data. -/
def startProg (prog : List Word) (regs0 : List (RegNum × Word)) : State :=
  State.atLaunch { launch4 with prog := prog, dataRegion := [] } regs0 []

/-- `start` with another `pc`. -/
def startAt (pc : Word) (regs0 : List (RegNum × Word)) : State := (start regs0).setPc pc

/-- What a register holds, the `pc` and the status after a step; none where there is no next state. -/
def seen (o : Host.Outcome State Fault Refusal) (r : RegNum) : Option (RegCell × Word × Status) :=
  match o with
  | .next t => some (t.regCell r, t.pc, t.status)
  | _ => none

/-- The word at a data address after a step; none where there is no next state or no word. -/
def wordAfter (o : Host.Outcome State Fault Refusal) (a : Word) : Option Word :=
  match o with
  | .next t => t.mem.readWord t.launch.endian a.toNat
  | _ => none

/-! ## WellFormed refuses what is ill formed -/

theorem test_textAligned_refuses : Launch.wf { launch4 with textBase := 0x00400002#32 } = false := by decide
theorem test_textFits_refuses : Launch.wf { launch4 with textBase := 0xFFFFFFF4#32 } = false := by decide
theorem test_textFits_accepts_the_top : Launch.wf { launch4 with textBase := 0xFFFFFFF0#32 } = true := by decide
theorem test_dataAligned_refuses : Launch.wf { launch4 with dataRegion := [⟨0x21#32, 1⟩] } = false := by decide
theorem test_dataFits_refuses : Launch.wf { launch4 with dataRegion := [⟨0xFFFFFFFC#32, 2⟩] } = false := by decide
theorem test_regs0_refuses_twice : regs0Wf [(8#5, 1#32), (8#5, 2#32)] = false := by decide
theorem test_regs0_refuses_zero : regs0Wf [(0#5, 1#32)] = false := by decide
theorem test_mem0_refuses_twice : mem0Wf launch4 [(0x20#32, 1#32), (0x20#32, 1#32)] = false := by decide
theorem test_mem0_refuses_text : mem0Wf launch4 [(0x00400000#32, 1#32)] = false := by decide
theorem test_mem0_refuses_misaligned : mem0Wf launch4 [(0x22#32, 1#32)] = false := by decide
theorem test_signedImm_refuses : signedImmOk 32768 = false ∧ signedImmOk (-32769) = false := by decide
theorem test_unsignedImm_refuses : unsignedImmOk 65536 = false ∧ unsignedImmOk (-1) = false := by decide
theorem test_shamt_refuses : shamtOk 32 = false ∧ shamtOk (-1) = false := by decide
theorem test_launch4_wf : launch4.wf = true ∧ mem0Wf launch4 mem4 = true := by decide

/-! ## Decoding words of the spec: one for every constructor

Those written in binary are the source's own (1.1, 1.2); the others are printed in 2.5, 2.6, 2.8, 2.10 and 3. -/

theorem test_decode_add : decode 0b00000010001100101000000000100000#32 = .ok (.add 16#5 17#5 18#5) := by decide
theorem test_decode_sub : decode 0b00000001011011010100000000100010#32 = .ok (.sub 8#5 11#5 13#5) := by decide
theorem test_decode_addi : decode 0b00100010011010001111111111110100#32 = .ok (.addi 8#5 19#5 0xFFF4#16) := by decide
theorem test_decode_lw : decode 0b10001100000010100000000000100000#32 = .ok (.lw 10#5 0#5 32#16) := by decide
theorem test_decode_sw : decode 0b10101101001100010000000000000100#32 = .ok (.sw 17#5 9#5 4#16) := by decide
theorem test_decode_sll : decode 0b00000000000100010100000010000000#32 = .ok (.sll 8#5 17#5 2#5) := by decide
theorem test_decode_srl : decode 0b00000000000100011001000010000010#32 = .ok (.srl 18#5 17#5 2#5) := by decide
theorem test_decode_sra : decode 0b00000000000100011001100010000011#32 = .ok (.sra 19#5 17#5 2#5) := by decide
theorem test_decode_and : decode 0x02329824#32 = .ok (.and 19#5 17#5 18#5) := by decide
theorem test_decode_or : decode 0x0232A025#32 = .ok (.or 20#5 17#5 18#5) := by decide
theorem test_decode_xor : decode 0x0232A826#32 = .ok (.xor 21#5 17#5 18#5) := by decide
theorem test_decode_nor : decode 0x0232B027#32 = .ok (.nor 22#5 17#5 18#5) := by decide
theorem test_decode_jr : decode 0x03E00008#32 = .ok (.jr 31#5) := by decide
theorem test_decode_j : decode 0x08100006#32 = .ok (.j 0x0100006#26) := by decide
theorem test_decode_jal : decode 0x0C100004#32 = .ok (.jal 0x0100004#26) := by decide
theorem test_decode_beq : decode 0x12110002#32 = .ok (.beq 16#5 17#5 2#16) := by decide
theorem test_decode_bne : decode 0x1520FFFB#32 = .ok (.bne 9#5 0#5 0xFFFB#16) := by decide
theorem test_decode_andi : decode 0x3232FA34#32 = .ok (.andi 18#5 17#5 0xFA34#16) := by decide
theorem test_decode_ori : decode 0x3633FA34#32 = .ok (.ori 19#5 17#5 0xFA34#16) := by decide
theorem test_decode_xori : decode 0x3A34FA34#32 = .ok (.xori 20#5 17#5 0xFA34#16) := by decide
theorem test_decode_lui : decode 0x3C10FEDC#32 = .ok (.lui 16#5 0xFEDC#16) := by decide
theorem test_decode_zero_word : decode 0x00000000#32 = .ok (.sll 0#5 0#5 0#5) := by decide

/-- The reserved words of 2.11, each by its case of R64. -/
theorem test_decode_refuses_fixed_fields :
    [0x02328060#32, 0x00314080#32, 0x03E10008#32, 0x3C301234#32].map decode = List.replicate 4 (.error .fixedField) := by
  decide
theorem test_decode_refuses_functs :
    [0x02328021#32, 0x0232802A#32, 0x02320018#32, 0x0000000C#32, 0x01314004#32, 0x0120F809#32].map decode =
      List.replicate 6 (.error .unlistedFunct) := by decide
theorem test_decode_refuses_ops :
    [0x26300005#32, 0x2A300005#32, 0x800A0020#32, 0xA1310004#32, 0x40000000#32, 0x04000000#32, 0xFFFFFFFF#32].map
      decode = List.replicate 7 (.error .unlistedOp) := by decide

/-- The encoder writes the same words (1.1, 2.5, 3). -/
theorem test_encode :
    [encode (.addi 16#5 17#5 5#16), encode (.addi 23#5 17#5 0xFFF1#16), encode (.sub 8#5 23#5 19#5),
      encode (.sra 17#5 17#5 2#5), encode (.bne 16#5 17#5 2#16), encode (.jr 8#5), encode (.lw 23#5 8#5 8#16)] =
    [0x22300005#32, 0x2237FFF1#32, 0x02F34022#32, 0x00118883#32, 0x16110002#32, 0x01000008#32, 0x8D170008#32] := by
  decide

/-! ## One step each, the values of 2.1 to 2.10 -/

/-- 2.1: the most negative number and -1. -/
theorem test_add_overflow_faults :
    seen (exec (.add 8#5 9#5 10#5) (start [(9#5, 0x80000000#32), (10#5, 0xFFFFFFFF#32)])) 8#5 =
      some (.unwritten, 0x00400000#32, .faulted (.integerOverflow 0x00400000#32)) := by decide
/-- 2.1: destination equal to both sources. -/
theorem test_add_same_register :
    seen (exec (.add 8#5 8#5 8#5) (start [(8#5, 0x15#32)])) 8#5 =
      some (.value 0x2A#32, 0x00400004#32, .running) := by decide
/-- 2.2: the operands are not interchanged. -/
theorem test_sub_order :
    seen (exec (.sub 8#5 9#5 10#5) (start [(9#5, 4#32), (10#5, 5#32)])) 8#5 =
      some (.value 0xFFFFFFFF#32, 0x00400004#32, .running) := by decide
/-- 2.2: under `wrap`, negating the most negative number. -/
theorem test_sub_wraps :
    seen (exec (.sub 8#5 0#5 10#5) (startWrap [(10#5, 0x80000000#32)])) 8#5 =
      some (.value 0x80000000#32, 0x00400004#32, .running) := by decide
/-- 2.3: the immediate is sign-extended. -/
theorem test_addi_sign_extends :
    seen (exec (.addi 8#5 0#5 0x8000#16) (start [])) 8#5 =
      some (.value 0xFFFF8000#32, 0x00400004#32, .running) := by decide
/-- 2.3: one past the smallest sum that fits. -/
theorem test_addi_overflow_faults :
    seen (exec (.addi 8#5 9#5 0x8000#16) (start [(9#5, 0x80007FFF#32)])) 8#5 =
      some (.unwritten, 0x00400000#32, .faulted (.integerOverflow 0x00400000#32)) := by decide
/-- 2.4: the base is overwritten after use, the displacement is negative. -/
theorem test_lw_negative_displacement :
    seen (exec (.lw 8#5 8#5 0xFFFC#16) (start [(8#5, 0x10000010#32)])) 8#5 =
      some (.value 7#32, 0x00400004#32, .running) := by decide
/-- 2.4: the address sum wraps. -/
theorem test_lw_address_wraps :
    seen (exec (.lw 10#5 8#5 0x28#16) (start [(8#5, 0xFFFFFFF8#32)])) 10#5 =
      some (.value 0xCAFEF00D#32, 0x00400004#32, .running) := by decide
/-- 2.4: the source's `sw $s1, 4($t1)`. -/
theorem test_sw_stores :
    wordAfter (exec (.sw 17#5 9#5 4#16) (start [(9#5, 0x10000000#32), (17#5, 0x2A#32)])) 0x10000004#32 =
      some 0x2A#32 := by decide
/-- 2.4: the base is read first. -/
theorem test_sw_reads_base_first :
    seen (exec (.sw 17#5 9#5 0#16) (start [])) 0#5 =
      some (.value 0#32, 0x00400000#32, .faulted (.unwrittenRegisterRead 0x00400000#32 9#5)) := by decide
/-- 2.5, the source's values, for the four register forms. -/
theorem test_and : seen (exec (.and 19#5 17#5 18#5) (start [(17#5, 0xFFFF0000#32), (18#5, 0x46A1F0B7#32)])) 19#5 =
    some (.value 0x46A10000#32, 0x00400004#32, .running) := by decide
theorem test_or : seen (exec (.or 19#5 17#5 18#5) (start [(17#5, 0xFFFF0000#32), (18#5, 0x46A1F0B7#32)])) 19#5 =
    some (.value 0xFFFFF0B7#32, 0x00400004#32, .running) := by decide
theorem test_xor : seen (exec (.xor 19#5 17#5 18#5) (start [(17#5, 0xFFFF0000#32), (18#5, 0x46A1F0B7#32)])) 19#5 =
    some (.value 0xB95EF0B7#32, 0x00400004#32, .running) := by decide
theorem test_nor : seen (exec (.nor 19#5 17#5 18#5) (start [(17#5, 0xFFFF0000#32), (18#5, 0x46A1F0B7#32)])) 19#5 =
    some (.value 0x00000F48#32, 0x00400004#32, .running) := by decide
/-- 2.6: the immediate is zero-extended. -/
theorem test_andi : seen (exec (.andi 8#5 9#5 0x8000#16) (start [(9#5, 0xFFFFFFFF#32)])) 8#5 =
    some (.value 0x00008000#32, 0x00400004#32, .running) := by decide
theorem test_ori : seen (exec (.ori 8#5 9#5 0x8765#16) (start [(9#5, 0xFEDC0000#32)])) 8#5 =
    some (.value 0xFEDC8765#32, 0x00400004#32, .running) := by decide
theorem test_xori : seen (exec (.xori 8#5 9#5 0x8000#16) (start [(9#5, 0xFFFFFFFF#32)])) 8#5 =
    some (.value 0xFFFF7FFF#32, 0x00400004#32, .running) := by decide
/-- 2.7: 0xF234012F by 4, the three ways; and by 31 where the sign fills. -/
theorem test_sll : seen (exec (.sll 8#5 9#5 4#5) (start [(9#5, 0xF234012F#32)])) 8#5 =
    some (.value 0x234012F0#32, 0x00400004#32, .running) := by decide
theorem test_srl : seen (exec (.srl 8#5 9#5 4#5) (start [(9#5, 0xF234012F#32)])) 8#5 =
    some (.value 0x0F234012#32, 0x00400004#32, .running) := by decide
theorem test_sra : seen (exec (.sra 8#5 9#5 4#5) (start [(9#5, 0xF234012F#32)])) 8#5 =
    some (.value 0xFF234012#32, 0x00400004#32, .running) := by decide
theorem test_sra_rounds_down : seen (exec (.sra 8#5 9#5 1#5) (start [(9#5, 0xFFFFFFFB#32)])) 8#5 =
    some (.value 0xFFFFFFFD#32, 0x00400004#32, .running) := by decide
/-- 2.8. -/
theorem test_lui : seen (exec (.lui 16#5 0xFEDC#16) (start [])) 16#5 =
    some (.value 0xFEDC0000#32, 0x00400004#32, .running) := by decide
/-- 2.9: taken, backward and wrapping below zero. -/
theorem test_beq_wraps : seen (exec (.beq 0#5 0#5 0xFFFE#16) (startAt 0#32 [])) 0#5 =
    some (.value 0#32, 0xFFFFFFFC#32, .running) := by decide
theorem test_beq_not_taken : seen (exec (.beq 8#5 0#5 2#16) (startAt 0x0040000C#32 [(8#5, 0x80000000#32)])) 0#5 =
    some (.value 0#32, 0x00400010#32, .running) := by decide
theorem test_bne_taken : seen (exec (.bne 8#5 9#5 0x8000#16) (start [(8#5, 0xFFFFFFFF#32), (9#5, 0xFFFF#32)])) 0#5 =
    some (.value 0#32, 0x003E0004#32, .running) := by decide
theorem test_bne_unwritten_faults : seen (exec (.bne 8#5 8#5 1#16) (start [])) 0#5 =
    some (.value 0#32, 0x00400000#32, .faulted (.unwrittenRegisterRead 0x00400000#32 8#5)) := by decide
/-- 2.10: the top bits come from `pc + 4`, which may wrap. -/
theorem test_j_region : seen (exec (.j 1#26) (startAt 0x0FFFFFFC#32 [])) 0#5 =
    some (.value 0#32, 0x10000004#32, .running) := by decide
theorem test_jal_link_wraps : seen (exec (.jal 2#26) (startAt 0xFFFFFFFC#32 [(31#5, 5#32)])) 31#5 =
    some (.value 0#32, 0x00000008#32, .running) := by decide
theorem test_jr_misaligned_completes : seen (exec (.jr 8#5) (start [(8#5, 0x1002#32)])) 8#5 =
    some (.value 0x1002#32, 0x1002#32, .running) := by decide

/-- 2.10 and P8: the step after a bad target, and at `TEXT_END`. -/
theorem test_step_misaligned : seen (step (startAt 0x1002#32 [])) 0#5 =
    some (.value 0#32, 0x1002#32, .faulted (.fetchMisaligned 0x1002#32)) := by decide
theorem test_step_not_admitted : seen (step (startAt 0#32 [])) 0#5 =
    some (.value 0#32, 0#32, .faulted (.fetchNotAdmitted 0#32)) := by decide
theorem test_step_halts : seen (step (startAt 0x00400010#32 [])) 0#5 =
    some (.value 0#32, 0x00400010#32, .halted) := by decide
/-- 2.11: a reserved word at the `pc`. -/
theorem test_step_reserved : seen (step (startProg [0x0232802A#32] [])) 0#5 =
    some (.value 0#32, 0x00400000#32, .faulted (.reservedInstruction 0x00400000#32 0x0232802A#32)) := by decide
/-- S0: the first step of the source's stored program. -/
theorem test_step_stored_program : seen (step (start [])) 10#5 =
    some (.value 0xCAFEF00D#32, 0x00400004#32, .running) := by decide
/-- The machine after reset, with the first instruction of S1 placed. -/
theorem test_step_placed : seen (step (State.reset.withFetchWord 32 0x20100004)) 16#5 =
    some (.value 4#32, 0x00400004#32, .running) := by decide
/-- The memory of the reset state has the canonical form. -/
theorem test_reset_memory : State.reset.mem.wf = true := by decide
/-- Letter case is told apart (log entry 23): a register name, a label. -/
theorem test_assemble_tells_case_apart :
    assemble 0x00400000#32 ["jr $RA".toList] = .error .badOperand ∧
    assemble 0x00400000#32 ["Target:".toList, "j target".toList] = .error .undefinedLabel := by decide
/-- The source's beq program (1.7), assembled to the words of S1. -/
theorem test_assemble_beq_program :
    assemble 0x00400000#32 ((["addi $s0, $0, 4        # $s0 = 0 + 4 = 4", "addi $s1, $0, 1", "sll  $s1, $s1, 2",
      "beq  $s0, $s1, target  # branch is taken", "addi $s1, $s1, 1", "sub  $s1, $s1, $s0",
      "target:                # label", "add  $s1, $s1, $s0"] : List String).map String.toList) =
    .ok [0x20100004#32, 0x20110001#32, 0x00118880#32, 0x12110002#32, 0x22310001#32, 0x02308822#32, 0x02308820#32] := by
  decide

/-! ## Witnesses: concrete states and operands that meet each statement's hypotheses

One theorem for each statement; a conjunct for each of its clauses, at the ends of its range where it has one. -/

theorem witness_EncodeOfDecode : decode 0x00000000#32 = .ok (.sll 0#5 0#5 0#5) ∧
    decode 0xAFFFFFFF#32 = .ok (.sw 31#5 31#5 0xFFFF#16) := by decide

/-- Each row of the table has a word with every free bit set, and a word matches none. -/
theorem witness_DecoderAgreesWithTable :
    (decoderTable.all fun r => (~~~r.mask ||| r.pattern) &&& r.mask == r.pattern) = true ∧
    ∀ r ∈ decoderTable, 0xFFFFFFFF#32 &&& r.mask ≠ r.pattern := by decide

/-- The program of one word is about to run it. -/
theorem aboutToRun_one (w : Word) (regs0 : List (RegNum × Word)) : AboutToRun (startProg [w] regs0) w :=
  ⟨rfl, show (0x00400000#32 : Word).toNat % 4 = 0 by decide, 0, rfl, rfl⟩

theorem witness_ReservedWordFaults : AboutToRun (startProg [0x02328060#32] []) 0x02328060#32 ∧
    ∀ r ∈ decoderTable, 0x02328060#32 &&& r.mask ≠ r.pattern := ⟨aboutToRun_one _ _, by decide⟩

theorem witness_StepRunsDecodedInstruction : AboutToRun (startProg [0x02328020#32] []) 0x02328020#32 ∧
    decode 0x02328020#32 = .ok (.add 16#5 17#5 18#5) := ⟨aboutToRun_one _ _, by decide⟩

/-- The words next to the two ends of the text, inside and outside. -/
theorem witness_FetchRule : (start []).launch.textBase.toNat % 4 = 0 ∧ (0x00400002#32 : Word).toNat % 4 ≠ 0 ∧
    ((0x003FFFFC#32 : Word).toNat % 4 = 0 ∧ ¬(0x00400000 ≤ (0x003FFFFC#32 : Word).toNat)) ∧
    ((0x00400010#32 : Word).toNat % 4 = 0 ∧ ¬((0x00400010#32 : Word).toNat < 0x00400000 + 4 * 4)) ∧
    WordAt (start []) 0x00400000#32 0x8C0A0020#32 ∧ WordAt (start []) 0x0040000C#32 0x016D4022#32 :=
  ⟨by decide, by decide, by decide, by decide, ⟨0, rfl, rfl⟩, ⟨3, rfl, rfl⟩⟩

theorem witness_BadPcFaults :
    ((startAt 0x0040000E#32 []).status = .running ∧ (startAt 0x0040000E#32 []).pc.toNat ≠ 0x00400000 + 4 * 4 ∧
      (startAt 0x0040000E#32 []).pc.toNat % 4 ≠ 0) ∧
    ((startAt 0x003FFFFC#32 []).status = .running ∧ (startAt 0x003FFFFC#32 []).pc.toNat < 0x00400000) ∧
    ((startAt 0x00400014#32 []).status = .running ∧ (startAt 0x00400014#32 []).pc.toNat = 0x00400000 + 4 * 4 + 4) := by
  decide

theorem witness_HaltsExactlyAtTextEnd : (startAt 0x00400010#32 []).status = .running ∧
    (startAt 0x00400010#32 []).pc.toNat = 0x00400000 + 4 * 4 ∧
    ∃ t, step (startAt 0x00400010#32 []) = .next t ∧ t.status = .halted := ⟨rfl, rfl, _, rfl, rfl⟩

theorem witness_StoppedMachineTakesNoStep : (start []).halt.status = .halted ∧
    ((start []).takeFault (.integerOverflow 0#32)).status = .faulted (.integerOverflow 0#32) := by decide

theorem witness_RunningMachineAlwaysSteps : State.reset.status = .running := rfl

theorem witness_FaultChangesOnlyStatus : ∃ t, step (startAt 0x00400002#32 []) = .next t ∧
    t.status = .faulted (.fetchMisaligned 0x00400002#32) := ⟨_, rfl, rfl⟩

theorem witness_StepNeverChangesTheText : ∃ t, step (start []) = .next t := ⟨_, rfl⟩

theorem witness_WrittenRegistersStayWritten : (∃ t, step (start []) = .next t) ∧ (start []).regCell 0#5 ≠ .unwritten :=
  ⟨⟨_, rfl⟩, by decide⟩

theorem witness_SequentialAdvance : (start []).status = .running ∧ isTransfer (.lui 8#5 1#16) = false ∧
    ∃ t, exec (.lui 8#5 1#16) (start []) = .next t ∧ t.status = .running := ⟨rfl, rfl, _, rfl, rfl⟩

theorem witness_OnlyJrMisalignsPc : (∀ rs, Instr.j 0x3FFFFFF#26 ≠ .jr rs) ∧ (start []).pc.toNat % 4 = 0 ∧
    ∃ t, exec (.j 0x3FFFFFF#26) (start []) = .next t := ⟨by simp, rfl, _, rfl⟩

/-- A branch over one word, to the `add` that follows it. -/
theorem witness_BranchHasNoDelaySlot :
    let s := startProg [0x12110001#32, 0#32, 0x02308820#32] [(16#5, 4#32), (17#5, 4#32)]
    AboutToRun s 0x12110001#32 ∧ decode 0x12110001#32 = .ok (.beq 16#5 17#5 1#16) ∧ s.regCell 16#5 = .value 4#32 ∧
      s.regCell 17#5 = .value 4#32 ∧ WordAt s (s.pc + 4#32 + (1#16).signExtend 32 * 4#32) 0x02308820#32 ∧
      decode 0x02308820#32 = .ok (.add 17#5 17#5 16#5) :=
  ⟨⟨rfl, rfl, 0, rfl, rfl⟩, by decide, by decide, by decide, ⟨2, rfl, rfl⟩, by decide⟩

theorem witness_ZeroWordOnlyAdvances : AboutToRun (startProg [0#32] []) 0#32 := aboutToRun_one _ _

theorem witness_RegisterZeroDiscardsWrites : (31#5 : RegNum) ≠ 0#5 ∧ (0#5 : RegNum) ≠ 31#5 := by decide

/-- Both outcomes: the result discarded, and the overflow still a fault (2.1). -/
theorem witness_DestinationZeroChangesOnlyPc :
    destination (.add 0#5 17#5 18#5) = some 0#5 ∧
    (∃ t, exec (.add 0#5 17#5 18#5) (start [(17#5, 1#32), (18#5, 1#32)]) = .next t ∧ t.status = .running) ∧
    ∃ t, exec (.add 0#5 17#5 18#5) (start [(17#5, 0x7FFFFFFF#32), (18#5, 1#32)]) = .next t ∧
      t.status = .faulted (.integerOverflow 0x00400000#32) := ⟨rfl, ⟨_, rfl, rfl⟩, ⟨_, rfl, rfl⟩⟩

theorem witness_OnlyDestinationChanges : destination (.jal 0#26) ≠ some 30#5 ∧
    ∃ t, exec (.jal 0#26) (start []) = .next t := ⟨by decide, _, rfl⟩

theorem witness_UnreadRegisterHasNoInfluence : 10#5 ∉ sources (.lw 10#5 0#5 32#16) ∧
    ∃ t, exec (.lw 10#5 0#5 32#16) (start []) = .next t := ⟨by decide, _, rfl⟩

theorem witness_WrittenMachineNeverReadsUnwritten : State.reset.AllWritten ∧ ∃ t, step State.reset = .next t :=
  ⟨by unfold State.AllWritten; decide, _, rfl⟩

/-- Every clause of R34 at the ends of a region: before it, at its first and last word, past it, and in the text. -/
theorem witness_MemReadRule :
    let s := start []
    (0x10000001#32 : Word).toNat % 4 ≠ 0 ∧ s.launch.inData 0x1C = false ∧ s.launch.inData 0x10000010 = false ∧
    (s.launch.inData 0x10000004 = true ∧ s.mem.readWord s.launch.endian 0x10000004 = none) ∧
    (s.launch.inData 0x20 = true ∧ s.mem.readWord s.launch.endian 0x20 = some 0xCAFEF00D#32) ∧
    (s.launch.inData 0x1000000C = true ∧ s.mem.readWord s.launch.endian 0x1000000C = some 7#32) ∧
    s.launch.inText 0x00400000 = true ∧ s.launch.inText 0x0040000C = true := by decide

theorem witness_MemWriteRule :
    let s := start []
    (0x1000000F#32 : Word).toNat % 4 ≠ 0 ∧ s.launch.inData 0x24 = false ∧ s.launch.inData 0x0FFFFFFC = false ∧
    s.launch.inData 0x10000000 = true ∧ s.launch.inData 0x1000000C = true ∧ s.launch.inText 0x0040000C = true ∧
    ((0x10000004#32 : Word).toNat % 4 = 0 ∧ (0x10000004#32 : Word) ≠ 0x10000000#32) := by decide

/-- The store through one register, the load through another base and displacement. -/
theorem witness_LoadReturnsTheStoredWord :
    let s := start [(9#5, 0x10000000#32), (17#5, 42#32), (8#5, 0x10000008#32)]
    s.regCell 9#5 = .value 0x10000000#32 ∧ s.regCell 17#5 = .value 42#32 ∧
    (0x10000000#32 + (4#16).signExtend 32).toNat % 4 = 0 ∧
    s.launch.inData (0x10000000#32 + (4#16).signExtend 32).toNat = true ∧ s.regCell 8#5 = .value 0x10000008#32 ∧
    (0x10000008#32 : Word) + (0xFFFC#16 : Imm).signExtend 32 = 0x10000000#32 + (4#16 : Imm).signExtend 32 := by decide

/-- A stored byte that was none before. -/
theorem witness_OnlyStoreWordChangesMemory :
    let s := State.atLaunch { launch4 with prog := [0xAD310004#32] } [(9#5, 0x10000000#32), (17#5, 42#32)] []
    ∃ t, step s = .next t ∧ t.mem.readByte 0x10000007 ≠ s.mem.readByte 0x10000007 := ⟨_, rfl, by decide⟩

theorem witness_DataAccessToTextFaults :
    let s := start [(8#5, 0x00400000#32), (9#5, 1#32)]
    s.regCell 8#5 = .value 0x00400000#32 ∧ s.regCell 9#5 = .value 1#32 ∧
    (0x00400000#32 + (12#16 : Imm).signExtend 32).toNat % 4 = 0 ∧
    s.launch.inText (0x00400000#32 + (12#16 : Imm).signExtend 32).toNat = true := by decide

/-- Two machines with one word of memory, in the two byte orders. -/
def storedOneWord (e : Endian) : State :=
  { startProg [0x8C0A0020#32] [] with
    mem := Memory.writeWord e [] 0x20 0xCAFEF00D#32
    launch := { launch4 with prog := [0x8C0A0020#32], endian := e } }

theorem witness_ByteOrderIsUnobservable :
    SameButByteOrder (storedOneWord .big) (storedOneWord .little) ∧
    ∃ t, step (storedOneWord .big) = .next t ∧ t.status = .running := by
  refine ⟨⟨fun _ => rfl, rfl, rfl, rfl, rfl, rfl, rfl, fun a ha => ?_⟩, _, rfl, by decide⟩
  show Memory.readWord .big (Memory.writeWord .big [] 0x20 0xCAFEF00D#32) a.toNat =
    Memory.readWord .little (Memory.writeWord .little [] 0x20 0xCAFEF00D#32) a.toNat
  have h4 := (isAligned_iff a).1 ha
  by_cases h : a.toNat = 0x20
  · rw [h, Memory.readWord_writeWord_same, Memory.readWord_writeWord_same]
  · rw [Memory.readWord_writeWord_other _ _ _ _ _ _ (by omega), Memory.readWord_writeWord_other _ _ _ _ _ _ (by omega)]
    rfl

theorem witness_StepKeepsInvariant :
    (startProg [0x02328020#32] []).Inv ∧ ∃ t, step (startProg [0x02328020#32] []) = .next t :=
  ⟨⟨by decide, by decide, fun _ h => absurd rfl h, by decide, fun _ h => (by cases h), fun h => (by cases h)⟩, _, rfl⟩

theorem witness_LaunchMeetsInvariant : launch4.wf = true ∧ regs0Wf [(31#5, 5#32)] = true ∧ mem0Wf launch4 mem4 = true := by
  decide

/-- A register and a word given, and one of each not given. -/
theorem witness_LaunchValues : launch4.wf = true ∧ regs0Wf [(31#5, 5#32)] = true ∧ mem0Wf launch4 mem4 = true ∧
    (31#5, 5#32) ∈ [((31#5 : RegNum), (5#32 : Word))] ∧ (1#5 : RegNum) ∉ [((31#5 : RegNum), (5#32 : Word))].map Prod.fst ∧
    (0x1000000C#32, 7#32) ∈ mem4 ∧ 0x10000004#32 ∉ mem4.map Prod.fst := by decide

/-- Placed off the text, and inside it. -/
theorem witness_PlacedInstructionRunsNext : decodeTableWord 32 0x02328020 = some (.add 16#5 17#5 18#5) ∧
    State.reset.launch.inText State.reset.pc.toNat = false ∧ (start []).launch.inText (start []).pc.toNat = true := by
  decide

/-- Every clause of the two-register arithmetic rules, at the ends of the signed range. -/
theorem witness_AddRule :
    (start []).regCell 9#5 = .unwritten ∧
    ((start [(9#5, 1#32)]).regCell 9#5 = .value 1#32 ∧ (start [(9#5, 1#32)]).regCell 10#5 = .unwritten) ∧
    ((start [(9#5, 0x7FFFFFFF#32), (10#5, 1#32)]).regCell 9#5 = .value 0x7FFFFFFF#32 ∧
      (start [(9#5, 0x7FFFFFFF#32), (10#5, 1#32)]).regCell 10#5 = .value 1#32 ∧
      (start [(9#5, 0x7FFFFFFF#32), (10#5, 1#32)]).launch.overflow = .fault) ∧
    2147483647 < (0x7FFFFFFF#32 : Word).toInt + (1#32 : Word).toInt ∧
    (0x80000000#32 : Word).toInt + (0xFFFFFFFF#32 : Word).toInt < -2147483648 ∧
    (startWrap []).launch.overflow ≠ .fault ∧
    (0x7FFFFFFF#32 : Word).toInt + (0#32 : Word).toInt = 2147483647 ∧
    (0x80000000#32 : Word).toInt + (0#32 : Word).toInt = -2147483648 := by decide

/-- The registers are those of the witness for AddRule. -/
theorem witness_SubRule :
    2147483647 < (0x7FFFFFFF#32 : Word).toInt - (0xFFFFFFFF#32 : Word).toInt ∧
    (0x80000000#32 : Word).toInt - (1#32 : Word).toInt < -2147483648 ∧
    (0x7FFFFFFF#32 : Word).toInt - (0#32 : Word).toInt = 2147483647 ∧
    (0xFFFFFFFF#32 : Word).toInt - (0x7FFFFFFF#32 : Word).toInt = -2147483648 := by decide

theorem witness_AddiRule :
    (start []).regCell 9#5 = .unwritten ∧ (start [(9#5, 0x7FFF8000#32)]).regCell 9#5 = .value 0x7FFF8000#32 ∧
    (0x7FFF8000#32 : Word).toInt + (0x7FFF#16 : Imm).toInt = 2147483647 ∧
    2147483647 < (0x7FFF8001#32 : Word).toInt + (0x7FFF#16 : Imm).toInt ∧
    (0x80008000#32 : Word).toInt + (0x8000#16 : Imm).toInt = -2147483648 ∧
    (0x80007FFF#32 : Word).toInt + (0x8000#16 : Imm).toInt < -2147483648 := by decide

/-- Each test met, and not met. -/
theorem witness_OverflowByBitTests :
    ((0x7FFFFFFF#32 : Word).msb = (1#32 : Word).msb ∧
      ((0x7FFFFFFF#32 : Word) + 1#32).msb ≠ (0x7FFFFFFF#32 : Word).msb) ∧
    ((0x80000000#32 : Word).msb ≠ (1#32 : Word).msb ∧
      ((0x80000000#32 : Word) - 1#32).msb ≠ (0x80000000#32 : Word).msb) ∧
    (start [(9#5, 4#32), (10#5, 4#32)]).regCell 9#5 = .value 4#32 ∧
    (start [(9#5, 4#32), (10#5, 4#32)]).regCell 10#5 = .value 4#32 := by decide

/-- Every clause of `lw` (2.4): the address is the displacement's, on a base of 0x10000000 or 0x00400000. -/
theorem witness_LoadWordRule :
    let s := start [(8#5, 0x10000000#32), (9#5, 0x00400000#32)]
    let ea (imm : Imm) : Word := 0x10000000#32 + imm.signExtend 32
    s.regCell 10#5 = .unwritten ∧ s.regCell 8#5 = .value 0x10000000#32 ∧ s.regCell 9#5 = .value 0x00400000#32 ∧
    (ea 3#16).toNat % 4 ≠ 0 ∧
    ((ea 16#16).toNat % 4 = 0 ∧ s.launch.inData (ea 16#16).toNat = false) ∧
    ((ea 4#16).toNat % 4 = 0 ∧ s.launch.inData (ea 4#16).toNat = true ∧
      s.mem.readWord s.launch.endian (ea 4#16).toNat = none) ∧
    ((ea 12#16).toNat % 4 = 0 ∧ s.launch.inData (ea 12#16).toNat = true ∧
      s.mem.readWord s.launch.endian (ea 12#16).toNat = some 7#32) ∧
    s.launch.inText ((0x00400000#32 : Word) + (12#16 : Imm).signExtend 32).toNat = true := by decide

/-- Every clause of `sw` (2.4). -/
theorem witness_StoreWordRule :
    let s := start [(8#5, 0x10000000#32), (9#5, 0x00400000#32), (17#5, 42#32)]
    let ea (imm : Imm) : Word := 0x10000000#32 + imm.signExtend 32
    s.regCell 10#5 = .unwritten ∧ s.regCell 8#5 = .value 0x10000000#32 ∧ s.regCell 17#5 = .value 42#32 ∧
    (ea 1#16).toNat % 4 ≠ 0 ∧
    ((ea 0xFFFC#16).toNat % 4 = 0 ∧ s.launch.inData (ea 0xFFFC#16).toNat = false) ∧
    ((ea 0#16).toNat % 4 = 0 ∧ s.launch.inData (ea 0#16).toNat = true) ∧
    ((ea 12#16).toNat % 4 = 0 ∧ s.launch.inData (ea 12#16).toNat = true) ∧
    s.launch.inText ((0x00400000#32 : Word) + (0#16 : Imm).signExtend 32).toNat = true := by decide

/-- Both sources written, either one unwritten; the first and the last bit. -/
theorem witness_RegisterLogicalRules :
    let s := start [(17#5, 4#32), (18#5, 4#32)]
    s.regCell 20#5 = .unwritten ∧ s.regCell 17#5 = .value 4#32 ∧ s.regCell 18#5 = .value 4#32 ∧ 0 < 32 ∧ 31 < 32 := by
  decide

/-- Written and unwritten; the bits on both sides of bit 16. -/
theorem witness_ImmediateLogicalRules :
    let s := start [(17#5, 4#32)]
    s.regCell 20#5 = .unwritten ∧ s.regCell 17#5 = .value 4#32 ∧ 15 < 16 ∧ ¬16 < 16 ∧ 16 < 32 := by decide

theorem witness_ShiftRules :
    let s := start [(17#5, 0x80000000#32)]
    s.regCell 20#5 = .unwritten ∧ s.regCell 17#5 = .value 0x80000000#32 := by decide

/-- Both sources written, with equal and with different values; either one unwritten. -/
theorem witness_BranchRules :
    let s := start [(17#5, 4#32), (18#5, 4#32), (19#5, 5#32)]
    s.regCell 20#5 = .unwritten ∧ s.regCell 17#5 = .value 4#32 ∧ s.regCell 18#5 = .value 4#32 ∧
    s.regCell 19#5 = .value 5#32 ∧ (4#32 : Word) ≠ 5#32 := by decide

/-- Every case of the step after `jr`: misaligned, at `TEXT_END`, one word past it, one word before the text. -/
theorem witness_JumpRegisterRule :
    let s := start [(8#5, 0x1002#32), (9#5, 0x00400010#32), (10#5, 0x00400014#32), (11#5, 0x003FFFFC#32)]
    s.regCell 12#5 = .unwritten ∧ s.status = .running ∧ s.launch.textBase.toNat % 4 = 0 ∧
    (s.regCell 8#5 = .value 0x1002#32 ∧ (0x1002#32 : Word).toNat % 4 ≠ 0) ∧
    (s.regCell 9#5 = .value 0x00400010#32 ∧ (0x00400010#32 : Word).toNat = 0x00400000 + 4 * 4) ∧
    (s.regCell 10#5 = .value 0x00400014#32 ∧ 0x00400000 + 4 * 4 < (0x00400014#32 : Word).toNat) ∧
    (s.regCell 11#5 = .value 0x003FFFFC#32 ∧ (0x003FFFFC#32 : Word).toNat < 0x00400000) := by decide

/-- The farthest labels each form reaches (2.9, 2.10), and the next ones refused. -/
theorem witness_ResolvedLabelsAreReached :
    branchField 0x00400000#32 0x00420000#32 = some 0x7FFF#16 ∧ branchField 0x00400000#32 0x003E0004#32 = some 0x8000#16 ∧
    branchField 0x00400000#32 0x00420004#32 = none ∧ branchField 0x00400000#32 0x003E0000#32 = none ∧
    jumpFieldOf 0x00400000#32 0x0FFFFFFC#32 = some 0x3FFFFFF#26 ∧ jumpFieldOf 0x00400000#32 0x10000000#32 = none := by
  decide

/-- The ends of each range of R69, and the numbers next to them. -/
theorem witness_ImmediateRefusedNotTruncated :
    (-32768 ≤ (-32768 : Int) ∧ (-32768 : Int) ≤ 32767) ∧ (-32768 ≤ (32767 : Int) ∧ (32767 : Int) ≤ 32767) ∧
    ¬(-32768 ≤ (-32769 : Int)) ∧ ¬((32768 : Int) ≤ 32767) ∧
    (0 ≤ (0 : Int) ∧ (0 : Int) ≤ 65535) ∧ (0 ≤ (65535 : Int) ∧ (65535 : Int) ≤ 65535) ∧
    ¬(0 ≤ (-1 : Int)) ∧ ¬((65536 : Int) ≤ 65535) ∧ (0 ≤ (31 : Int) ∧ (31 : Int) ≤ 31) ∧ ¬((32 : Int) ≤ 31) := by decide

end Sys2Proof.Tests
end

section
/-! PROOFS. The launch parameters: no step changes one (R5), so the program is never written (R22, R41); and the
values of the state after reset. -/

namespace Sys2Proof.Machine

/-! ## What keeps the launch parameters -/

/-- No effect of an instruction reaches the launch parameters (R5). -/
theorem Effect.launch_eq {i : Instr} {s t : State} (h : Effect i s t) : t.launch = s.launch := by
  cases h with
  | fault c _ => exact s.takeFault_launch c
  | result r v _ => exact s.writeResult_launch r v
  | store _ _ _ _ _ _ _ _ _ _ => exact State.advance_launch _
  | branch _ _ _ target _ _ => exact s.setPc_launch target
  | jump _ _ => exact s.setPc_launch _
  | jumpReg _ target _ _ => exact s.setPc_launch target
  | link _ _ => rw [State.setPc_launch, State.writeReg_launch]

/-- A step that answers a next state keeps the launch parameters: the end of a run and a fault change only the status
(R140, R173), and an instruction changes none (R5). -/
theorem step_launch_eq {s t : State} (h : step s = .next t) : t.launch = s.launch := by
  obtain ⟨-, ⟨-, rfl⟩ | ⟨-, c, -, rfl⟩ | ⟨-, i, -, hexec⟩⟩ := step_next h
  · exact s.halt_launch
  · exact s.takeFault_launch c
  · exact (exec_effect hexec).launch_eq

/-- A fetch depends on the launch parameters alone: neither registers nor data memory are read (R36, R41). -/
theorem State.fetch_congr {s t : State} (h : t.launch = s.launch) (a : Word) : t.fetch a = s.fetch a := by
  unfold State.fetch
  rw [h]

/-- Settles O14, from what each effect of an instruction keeps: the program is fetched from the launch parameters. -/
theorem stepNeverChangesTheText : Obligations.StepNeverChangesTheText := by
  intro s t h
  have hlaunch : t.launch = s.launch := step_launch_eq h
  exact ⟨hlaunch, State.fetch_congr hlaunch⟩

/-! ## The state after reset -/

/-- Every register holds 0 after reset: register 0 by R12, the others by log entry 1. -/
theorem State.reset_regCell (r : RegNum) : State.reset.regCell r = .value 0#32 := by
  unfold State.regCell
  split
  · rfl
  · exact Vector.getElem_replicate r.isLt

/-- The reset launch has no program, so no address is text (log entry 2). -/
theorem resetLaunch_inText (a : Nat) : Config.resetLaunch.inText a = false := by
  rw [Launch.inText_eq_false_iff]
  simp only [Config.resetLaunch, List.length_nil]
  omega

/-- The one data region of the reset launch is the whole address space (log entry 3). -/
theorem resetLaunch_inData {a : Word} (ha : a.toNat % 4 = 0) : Config.resetLaunch.inData a.toNat = true := by
  have hregion : Region.contains ⟨0#32, 1073741824⟩ a.toNat = true := by
    rw [Region.contains_iff]
    exact ⟨Nat.zero_le _, by simpa using a.isLt⟩
  exact (Launch.inData_iff _ _).2 ⟨ha, ⟨_, List.mem_singleton_self _, hregion⟩, resetLaunch_inText _⟩

/-- Settles O35, field by field of `State.reset`. -/
theorem resetValues : Obligations.ResetValues :=
  ⟨State.reset_pc, State.reset_status, fun _ => rfl, State.reset_regCell, rfl, rfl, rfl,
    fun _ ha => resetLaunch_inData ha⟩

end Sys2Proof.Machine
end

section
/-! PROOFS. One step of the machine (R26): what it answers in each of its cases, where the run ends (R173), and that it
is total. -/

namespace Sys2Proof.Machine

open Sys2Proof.Certificates

/-! ## What a step answers, case by case -/

theorem step_of_halted {s : State} (hs : s.status = .halted) : step s = .fault .halted := by
  simp [step, hs]

theorem step_of_faulted {s : State} {c : Cause} (hs : s.status = .faulted c) : step s = .fault (.faulted c) := by
  simp [step, hs]

theorem step_of_atTextEnd {s : State} (hs : s.status = .running) (he : s.atTextEnd = true) : step s = .next s.halt := by
  simp [step, hs, he]

theorem step_of_nextInstr_error {s : State} {c : Cause} (hs : s.status = .running) (he : s.atTextEnd = false)
    (hn : s.nextInstr = .error c) : step s = .next (s.takeFault c) := by
  simp [step, hs, he, hn]

theorem step_of_nextInstr_ok {s : State} {i : Instr} (hs : s.status = .running) (he : s.atTextEnd = false)
    (hn : s.nextInstr = .ok i) : step s = exec i s := by
  simp [step, hs, he, hn]

/-! ## Fetching and decoding -/

theorem State.nextInstr_of_fetch_error {s : State} {c : Cause} (hf : s.fetch s.pc = .error c) :
    s.nextInstr = .error c := by
  rw [State.nextInstr, hf]
  rfl

theorem State.nextInstr_of_decode {s : State} {w : Word} {i : Instr} (hf : s.fetch s.pc = .ok w)
    (hd : decode w = .ok i) : s.nextInstr = .ok i := by
  simp [State.nextInstr, hf, hd, bind, Except.bind, pure, Except.pure]

/-- Every fault of the fetch records the address fetched (R141). -/
theorem State.fetch_error_pc {s : State} {a : Word} {c : Cause} (h : s.fetch a = .error c) : c.pc = a := by
  obtain ⟨-, hf⟩ | ⟨-, hf⟩ | ⟨-, -, w, -, hf⟩ := s.fetch_cases a
  · cases hf.symm.trans h; rfl
  · cases hf.symm.trans h; rfl
  · cases hf.symm.trans h

/-- A fault of the fetch or of the decoder records the `pc` (R143). -/
theorem State.nextInstr_error_pc {s : State} {c : Cause} (h : s.nextInstr = .error c) : c.pc = s.pc := by
  obtain hf | ⟨w, e, -, -, rfl⟩ := State.nextInstr_eq_error h
  · exact State.fetch_error_pc hf
  · rfl

/-- A word can be fetched from the text alone, and `TEXT_END` is no address of the text (R22, R173). -/
theorem State.atTextEnd_of_fetch_ok {s : State} {w : Word} (hf : s.fetch s.pc = .ok w) : s.atTextEnd = false := by
  obtain ⟨-, h⟩ | ⟨-, h⟩ | ⟨-, hin, -⟩ := s.fetch_cases s.pc
  · cases h.symm.trans hf
  · cases h.symm.trans hf
  · have hlt := ((Launch.inText_iff _ _).1 hin).2
    exact Bool.eq_false_iff.2 fun he => absurd ((State.atTextEnd_iff s).1 he) (Nat.ne_of_lt hlt)

/-- A running machine executes the instruction its `pc` fetches (R26). -/
theorem step_eq_exec {s : State} {w : Word} {i : Instr} (hs : s.status = .running) (hf : s.fetch s.pc = .ok w)
    (hd : decode w = .ok i) : step s = exec i s :=
  step_of_nextInstr_ok hs (State.atTextEnd_of_fetch_ok hf) (State.nextInstr_of_decode hf hd)

/-- A running machine away from `TEXT_END` takes the fault of its fetch (R26). -/
theorem step_of_fetch_error {s : State} {c : Cause} (hs : s.status = .running) (he : s.atTextEnd = false)
    (hf : s.fetch s.pc = .error c) : step s = .next (s.takeFault c) :=
  step_of_nextInstr_error hs he (State.nextInstr_of_fetch_error hf)

/-! ## What an instruction answers -/

/-- An instruction's rule always ends in a next state: its writes, or the fault it raised (R26, R140). -/
theorem State.complete_total (s : State) (r : Checked State) : ∃ t, s.complete r = .next t := by
  cases r with
  | ok t => exact ⟨t, rfl⟩
  | error c => exact ⟨s.takeFault c, rfl⟩

/-- Every instruction answers a next state, in every state. -/
theorem exec_total (i : Instr) (s : State) : ∃ t, exec i s = .next t := by
  cases i with
  | j _ | jal _ | lui _ _ => exact ⟨_, rfl⟩
  | _ => exact s.complete_total _

/-- An instruction keeps the status or takes a fault: none ends the run normally (R173). -/
theorem Effect.status_cases {i : Instr} {s t : State} (h : Effect i s t) :
    t.status = s.status ∨ ∃ c, t = s.takeFault c ∧ c.pc = s.pc := by
  cases h with
  | fault c hpc => exact .inr ⟨c, rfl, hpc⟩
  | result r v _ => exact .inl (s.writeResult_status r v)
  | store _ _ _ _ _ _ _ _ _ _ => exact .inl rfl
  | branch _ _ _ _ _ _ => exact .inl rfl
  | jump _ _ => exact .inl rfl
  | jumpReg _ _ _ _ => exact .inl rfl
  | link _ _ => exact .inl (by rw [State.setPc_status, State.writeReg_status])

/-! ## The statements -/

/-- Settles O7: `AboutToRun` says that the word at `pc` is fetched. -/
theorem stepRunsDecodedInstruction : Obligations.StepRunsDecodedInstruction := by
  rintro s w i ⟨hs, hbase, k, hk, hpc⟩ hd
  exact step_eq_exec hs (State.fetch_word hbase hk hpc) hd

/-- Settles O9: the two refusals of the fetch, at a `pc` that is not `TEXT_END`. -/
theorem badPcFaults : Obligations.BadPcFaults := by
  intro s hs hne
  have hend : s.atTextEnd = false := Bool.eq_false_iff.2 fun he => hne ((State.atTextEnd_iff s).1 he)
  refine ⟨fun hmis => ?_, fun hal hout => ?_⟩
  · have hna : isAligned s.pc = false := Bool.eq_false_iff.2 fun ha => hmis ((isAligned_iff _).1 ha)
    exact step_of_fetch_error hs hend (by simp [State.fetch, hna])
  · have hin : s.launch.inText s.pc.toNat = false := (Launch.inText_eq_false_iff _ _).2 hout
    exact step_of_fetch_error hs hend (State.fetch_outside ((isAligned_iff _).2 hal) hin)

/-- Settles O10: the step of a running machine is the halt only at `TEXT_END`, and no fault or instruction sets the
status to halted. -/
theorem haltsExactlyAtTextEnd : Obligations.HaltsExactlyAtTextEnd := by
  refine fun s => ⟨fun hs hpc => step_of_atTextEnd hs ((State.atTextEnd_iff s).2 hpc), fun t h hhalt => ?_⟩
  obtain ⟨hs, ⟨he, -⟩ | ⟨-, c, -, rfl⟩ | ⟨-, i, -, hexec⟩⟩ := step_next h
  · exact (State.atTextEnd_iff s).1 he
  · cases hhalt
  · obtain hkept | ⟨c, rfl, -⟩ := (exec_effect hexec).status_cases
    · rw [hkept, hs] at hhalt
      cases hhalt
    · cases hhalt

/-- Settles O11, from the two statuses in which a step stops. -/
theorem stoppedMachineTakesNoStep : Obligations.StoppedMachineTakesNoStep :=
  fun _ => ⟨step_of_halted, fun _ => step_of_faulted⟩

/-- Settles O12, by the three cases of a running machine's step. -/
theorem runningMachineAlwaysSteps : Obligations.RunningMachineAlwaysSteps := by
  intro s hs
  cases he : s.atTextEnd with
  | true => exact ⟨_, step_of_atTextEnd hs he⟩
  | false =>
    cases hn : s.nextInstr with
    | error c => exact ⟨_, step_of_nextInstr_error hs he hn⟩
    | ok i =>
      obtain ⟨t, ht⟩ := exec_total i s
      exact ⟨t, (step_of_nextInstr_ok hs he hn).trans ht⟩

end Sys2Proof.Machine
end

section
/-! PROOFS. The invariant of a machine launched well (R170): every update of the state keeps it, so every step does; a
well-formed launch and reset meet it. -/

namespace Sys2Proof.Machine

/-! ## Memory made of whole words of `DATA_REGION` (R23) -/

/-- Memory is canonical and holds whole words of `DATA_REGION`: the two clauses of `State.Inv` about memory. -/
structure Memory.Admitted (l : Launch) (m : Memory) : Prop where
  canonical : m.wf = true
  words : ∀ a, m.readByte a ≠ none →
    l.inData (a - a % 4) = true ∧ ∀ k, k < 4 → m.readByte (a - a % 4 + k) ≠ none

theorem State.Inv.memAdmitted {s : State} (h : s.Inv) : Memory.Admitted s.launch s.mem :=
  ⟨h.memCanonical, h.memWords⟩

theorem Memory.admitted_nil (l : Launch) : Memory.Admitted l [] :=
  ⟨Memory.wf_nil, fun _ h => absurd rfl h⟩

/-- The four bytes of a word stored hold values. -/
theorem Memory.readByte_writeWord_inside (e : Endian) (m : Memory) (a k : Nat) (v : Word) (hk : k < 4) :
    (m.writeWord e a v).readByte (a + k) ≠ none := by
  rw [Memory.readByte_writeWord]
  interval_cases k <;> simp

/-- A store empties no byte. -/
theorem Memory.readByte_writeWord_ne_none {e : Endian} {m : Memory} {a b : Nat} {v : Word} (h : m.readByte b ≠ none) :
    (m.writeWord e a v).readByte b ≠ none := by
  by_cases hb : b < a ∨ a + 3 < b
  · rwa [Memory.readByte_writeWord_outside e m a b v hb]
  · have hin := Memory.readByte_writeWord_inside e m a (b - a) v (by omega)
    rwa [show a + (b - a) = b by omega] at hin

/-- A word stored at an address of `DATA_REGION` keeps memory made of whole words of it. -/
theorem Memory.Admitted.writeWord {l : Launch} {m : Memory} (h : Memory.Admitted l m) (e : Endian) (a v : Word)
    (hdata : l.inData a.toNat = true) : Memory.Admitted l (m.writeWord e a.toNat v) := by
  have ha : a.toNat % 4 = 0 := ((Launch.inData_iff l _).1 hdata).1
  refine ⟨Memory.wf_writeWord h.canonical (aligned_word_fits ((isAligned_iff a).2 ha)), fun b hb => ?_⟩
  by_cases hout : b < a.toNat ∨ a.toNat + 3 < b
  · rw [Memory.readByte_writeWord_outside _ _ _ _ _ hout] at hb
    obtain ⟨hin, hbytes⟩ := h.words b hb
    exact ⟨hin, fun k hk => Memory.readByte_writeWord_ne_none (hbytes k hk)⟩
  · have hbase : b - b % 4 = a.toNat := by omega
    rw [hbase]
    exact ⟨hdata, fun k hk => Memory.readByte_writeWord_inside _ _ _ k _ hk⟩

/-! ## Cell 0 (R12) -/

/-- A write to a register never reaches cell 0. -/
@[simp] theorem State.writeReg_cellZero (s : State) (r : RegNum) (v : Word) : (s.writeReg r v).x[0] = s.x[0] := by
  by_cases hr : r = 0#5
  · simp [State.writeReg, hr]
  · have hne : r.toNat ≠ 0 := fun h => hr (BitVec.eq_of_toNat_eq h)
    simp [State.writeReg, hr, hne]

/-! ## Each update of the state keeps the invariant -/

theorem State.Inv.halt {s : State} (h : s.Inv) (he : s.atTextEnd = true) : s.halt.Inv where
  launchWf := h.launchWf
  memCanonical := h.memCanonical
  memWords := h.memWords
  zeroCell := h.zeroCell
  faultPc _ hc := nomatch hc
  haltedPc _ := (State.atTextEnd_iff s).1 he

theorem State.Inv.takeFault {s : State} {c : Cause} (h : s.Inv) (hpc : c.pc = s.pc) : (s.takeFault c).Inv where
  launchWf := h.launchWf
  memCanonical := h.memCanonical
  memWords := h.memWords
  zeroCell := h.zeroCell
  faultPc _ hc := Status.faulted.inj hc ▸ hpc
  haltedPc hh := nomatch hh

/-- The `pc` of a running machine is free: the invariant fixes it only where the run has ended. -/
theorem State.Inv.setPc {s : State} (h : s.Inv) (hs : s.status = .running) (t : Word) : (s.setPc t).Inv where
  launchWf := h.launchWf
  memCanonical := h.memCanonical
  memWords := h.memWords
  zeroCell := h.zeroCell
  faultPc _ hc := nomatch hs.symm.trans hc
  haltedPc hh := nomatch hs.symm.trans hh

theorem State.Inv.advance {s : State} (h : s.Inv) (hs : s.status = .running) : s.advance.Inv :=
  h.setPc hs (nextPc s.pc)

theorem State.Inv.writeReg {s : State} (h : s.Inv) (r : RegNum) (v : Word) : (s.writeReg r v).Inv where
  launchWf := by simpa using h.launchWf
  memCanonical := by simpa using h.memCanonical
  memWords := by simpa using h.memWords
  zeroCell := by simpa using h.zeroCell
  faultPc := by simpa using h.faultPc
  haltedPc := by simpa using h.haltedPc

theorem State.Inv.setMem {s : State} {m : Memory} (h : s.Inv) (hm : Memory.Admitted s.launch m) :
    ({ s with mem := m } : State).Inv where
  launchWf := h.launchWf
  memCanonical := hm.canonical
  memWords := hm.words
  zeroCell := h.zeroCell
  faultPc := h.faultPc
  haltedPc := h.haltedPc

/-- Every effect of an instruction on a running machine keeps the invariant. -/
theorem Effect.inv {i : Instr} {s t : State} (he : Effect i s t) (h : s.Inv) (hs : s.status = .running) : t.Inv := by
  cases he with
  | fault c hpc => exact h.takeFault hpc
  | result r v _ => exact (h.writeReg r v).advance (by rw [State.writeReg_status, hs])
  | store _ _ imm base v _ _ _ _ hdata =>
    exact (h.setMem (h.memAdmitted.writeWord s.launch.endian (effectiveAddress base imm) v hdata)).advance hs
  | branch _ _ _ target _ _ => exact h.setPc hs target
  | jump _ _ => exact h.setPc hs _
  | jumpReg _ target _ _ => exact h.setPc hs target
  | link _ _ => exact (h.writeReg _ _).setPc (by rw [State.writeReg_status, hs]) _

/-- Settles O31, by the three cases of a step: the halt at `TEXT_END`, a fault of fetch or decode, an instruction. -/
theorem stepKeepsInvariant : Obligations.StepKeepsInvariant := by
  intro s t h hstep
  obtain ⟨hs, ⟨he, rfl⟩ | ⟨-, c, hc, rfl⟩ | ⟨-, i, -, hexec⟩⟩ := step_next hstep
  · exact h.halt he
  · exact h.takeFault (State.nextInstr_error_pc hc)
  · exact (exec_effect hexec).inv h hs

/-! ## Launch and reset meet the invariant -/

/-- Storing words of `DATA_REGION` one after the other keeps memory made of whole words of it. -/
theorem Memory.Admitted.foldl_writeWord {l : Launch} {e : Endian} {mem0 : List (Word × Word)} {m : Memory}
    (h : Memory.Admitted l m) (hdata : ∀ p ∈ mem0, l.inData p.1.toNat = true) :
    Memory.Admitted l (mem0.foldl (fun m p => Memory.writeWord e m p.1.toNat p.2) m) :=
  List.foldlRecOn mem0 _ h fun _ hm p hp => hm.writeWord e p.1 p.2 (hdata p hp)

theorem mem0Wf_iff (l : Launch) (mem0 : List (Word × Word)) :
    mem0Wf l mem0 = true ↔ (mem0.map Prod.fst).Nodup ∧ ∀ p ∈ mem0, l.inData p.1.toNat = true := by
  rw [mem0Wf, Bool.and_eq_true, decide_eq_true_eq, List.all_eq_true]

/-- `REGS0` never reaches cell 0, whatever it lists. -/
theorem launchRegs_cellZero (regs0 : List (RegNum × Word)) : (launchRegs regs0)[0] = .value 0#32 := by
  refine List.foldlRecOn (motive := fun x : Vector RegCell 32 => x[0] = .value 0#32) regs0 _ rfl fun x hx p _ => ?_
  by_cases hp : p.1 = 0#5
  · rwa [if_pos hp]
  · have hne : p.1.toNat ≠ 0 := fun h => hp (BitVec.eq_of_toNat_eq h)
    rw [if_neg hp, Vector.getElem_set_ne _ _ hne, hx]

/-- Settles O33: the words of `MEM0` are stored one by one in `DATA_REGION`, and the machine is running. -/
theorem launchMeetsInvariant : Obligations.LaunchMeetsInvariant := by
  intro l regs0 mem0 hl _ hmem0
  obtain ⟨-, hdata⟩ := (mem0Wf_iff l mem0).1 hmem0
  have hmem : Memory.Admitted l (launchMem l.endian mem0) := (Memory.admitted_nil l).foldl_writeWord hdata
  exact {
    launchWf := hl
    memCanonical := hmem.canonical
    memWords := hmem.words
    zeroCell := launchRegs_cellZero regs0
    faultPc := fun _ hc => nomatch hc
    haltedPc := fun hh => nomatch hh }

/-- The parameters of reset are well formed: the empty program, and the whole address space as one region. -/
theorem resetLaunch_wf : Config.resetLaunch.wf = true := by decide

/-- Settles O32: nothing is stored, register 0 holds 0 and the machine is running. -/
theorem resetMeetsInvariant : Obligations.ResetMeetsInvariant where
  launchWf := resetLaunch_wf
  memCanonical := Memory.wf_nil
  memWords := (Memory.admitted_nil _).words
  zeroCell := rfl
  faultPc _ hc := nomatch hc
  haltedPc hh := nomatch hh

end Sys2Proof.Machine
end

section
/-! PROOFS. What an instruction changes (R15, R17, R18): its destination register, the `pc`, and for `sw` one word of
memory. Each statement follows from the effects of `exec_effect`. -/

namespace Sys2Proof.Machine

open Sys2Proof.Certificates

/-! ## The `pc` after an instruction -/

/-- The next instruction's address is aligned where this one's is (R17, R18). -/
theorem nextPc_aligned {pc : Word} (h : pc.toNat % 4 = 0) : (nextPc pc).toNat % 4 = 0 := by
  rw [nextPc, BitVec.toNat_add]
  have : (4#32 : Word).toNat = 4 := rfl
  omega

/-- A branch moves by whole instructions from the next one (R58). -/
theorem branchTarget_aligned {pc : Word} (imm : Imm) (h : pc.toNat % 4 = 0) : (branchTarget pc imm).toNat % 4 = 0 := by
  have hnext := nextPc_aligned h
  have hshift : (sext32 imm <<< 2).toNat % 4 = 0 := by
    rw [BitVec.toNat_shiftLeft, Nat.shiftLeft_eq]
    omega
  rw [branchTarget, BitVec.toNat_add]
  omega

/-- A jump target ends in two zero bits (R59). -/
theorem jumpTarget_aligned (pc : Word) (addr : JumpField) : (jumpTarget pc addr).toNat % 4 = 0 := by
  rw [jumpTarget, BitVec.toNat_append, ← Nat.shiftLeft_add_eq_or_of_lt (BitVec.isLt _), Nat.shiftLeft_eq]
  have : (0#2).toNat = 0 := rfl
  omega

/-- Every effect but that of `jr` keeps an aligned `pc` aligned (R18). -/
theorem Effect.pc_aligned {i : Instr} {s t : State} (h : Effect i s t) (hjr : ∀ rs, i ≠ .jr rs)
    (hal : s.pc.toNat % 4 = 0) : t.pc.toNat % 4 = 0 := by
  cases h with
  | fault c _ => exact hal
  | result r v _ => rw [State.writeResult_pc]; exact nextPc_aligned hal
  | store _ _ _ _ _ _ _ _ _ _ => exact nextPc_aligned hal
  | branch _ _ imm _ _ target =>
    obtain rfl | rfl := target
    · exact branchTarget_aligned imm hal
    · exact nextPc_aligned hal
  | jump addr _ => exact jumpTarget_aligned s.pc addr
  | jumpReg rs _ form _ => exact absurd form (hjr rs)
  | link addr _ => exact jumpTarget_aligned s.pc addr

/-- The effect of an instruction that is no transfer is a fault, or the advance to the next instruction (R17). -/
theorem Effect.pc_of_not_transfer {i : Instr} {s t : State} (h : Effect i s t) (hi : isTransfer i = false) :
    (∃ c, t = s.takeFault c) ∨ t.pc = nextPc s.pc := by
  cases h with
  | fault c _ => exact .inl ⟨c, rfl⟩
  | result r v _ => exact .inr (s.writeResult_pc r v)
  | store _ _ _ _ _ _ _ _ _ _ => exact .inr rfl
  | branch _ _ _ _ form _ => obtain rfl | rfl := form <;> cases hi
  | jump _ form => cases form; cases hi
  | jumpReg _ _ form _ => cases form; cases hi
  | link _ form => cases form; cases hi

/-- Settles O15: an instruction that leaves the machine running took no fault. -/
theorem sequentialAdvance : Obligations.SequentialAdvance := by
  intro i s t _ hi hexec hrun
  obtain ⟨c, rfl⟩ | hpc := (exec_effect hexec).pc_of_not_transfer hi
  · cases hrun
  · exact hpc

/-- Settles O16, from the alignment of each kind of target. -/
theorem onlyJrMisalignsPc : Obligations.OnlyJrMisalignsPc :=
  fun _ _ _ hjr hal hexec => (exec_effect hexec).pc_aligned hjr hal

/-! ## The register an instruction writes (R15) -/

/-- The register of `Effect.result` is the one R15 says its instructions write. -/
theorem destination_of_result {i : Instr} {r : RegNum}
    (form : (∃ rs rt, i = .add r rs rt ∨ i = .sub r rs rt ∨ i = .and r rs rt ∨ i = .or r rs rt ∨ i = .xor r rs rt ∨
        i = .nor r rs rt) ∨ (∃ rt sh, i = .sll r rt sh ∨ i = .srl r rt sh ∨ i = .sra r rt sh) ∨
      (∃ rs imm, i = .addi r rs imm ∨ i = .andi r rs imm ∨ i = .ori r rs imm ∨ i = .xori r rs imm ∨ i = .lw r rs imm) ∨
      ∃ imm, i = .lui r imm) : destination i = some r := by
  obtain ⟨rs, rt, rfl | rfl | rfl | rfl | rfl | rfl⟩ | ⟨rt, sh, rfl | rfl | rfl⟩ |
    ⟨rs, imm, rfl | rfl | rfl | rfl | rfl⟩ | ⟨imm, rfl⟩ := form <;> rfl

/-- A register after an effect: as before, or holding a value as the destination of R15. -/
theorem Effect.regCell_cases {i : Instr} {s t : State} (h : Effect i s t) (q : RegNum) :
    t.regCell q = s.regCell q ∨ destination i = some q ∧ ∃ v, t.regCell q = .value v := by
  cases h with
  | result r v form =>
    rw [State.regCell_writeResult]
    split
    next hq =>
      obtain ⟨rfl, -⟩ := hq
      exact .inr ⟨destination_of_result form, v, rfl⟩
    next => exact .inl rfl
  | link addr form =>
    rw [State.setPc_regCell, State.regCell_writeReg]
    split
    next hq =>
      obtain ⟨rfl, -⟩ := hq
      exact .inr ⟨by rw [form]; rfl, _, rfl⟩
    next => exact .inl rfl
  | _ => exact .inl rfl

/-- Settles O21: the one register an effect can change is the destination. -/
theorem onlyDestinationChanges : Obligations.OnlyDestinationChanges :=
  fun _ _ _ hexec q hq => ((exec_effect hexec).regCell_cases q).resolve_right fun h => hq h.1

/-- A register after a step: as before, or holding a value. The mark `Unwritten` is never set (R14). -/
theorem step_regCell_cases {s t : State} (h : step s = .next t) (q : RegNum) :
    t.regCell q = s.regCell q ∨ ∃ v, t.regCell q = .value v := by
  obtain ⟨-, ⟨-, rfl⟩ | ⟨-, c, -, rfl⟩ | ⟨-, i, -, hexec⟩⟩ := step_next h
  · exact .inl rfl
  · exact .inl rfl
  · exact ((exec_effect hexec).regCell_cases q).imp_right And.right

/-- Settles O23, from what a step can leave in a register. -/
theorem writtenRegistersStayWritten : Obligations.WrittenRegistersStayWritten := by
  intro s t r h hr
  obtain hkept | ⟨v, hv⟩ := step_regCell_cases h r
  · rwa [hkept]
  · rw [hv]
    exact nofun

/-! ## Destination 0 -/

/-- A result for register 0 is discarded, and the `pc` still moves on (R13, R65). -/
theorem State.onlyMovesPc_writeResult_zero (s : State) (v : Word) :
    s.OnlyMovesPc (s.writeResult 0#5 v) (s.pc + 4#32) where
  regs q := by simp [State.regCell_writeResult]
  pc := s.writeResult_pc 0#5 v
  mem _ := by rw [State.writeResult_mem]
  status := s.writeResult_status 0#5 v
  launch := s.writeResult_launch 0#5 v

/-- The effect of an instruction with a destination: a fault, or the destination written and the advance, or the link of
`jal`. -/
theorem Effect.of_destination {i : Instr} {s t : State} {r : RegNum} (h : Effect i s t) (hr : destination i = some r) :
    (∃ c, t = s.takeFault c) ∨ (∃ v, t = s.writeResult r v) ∨ r = 31#5 := by
  cases h with
  | fault c _ => exact .inl ⟨c, rfl⟩
  | result r' v form =>
    cases (destination_of_result form).symm.trans hr
    exact .inr (.inl ⟨v, rfl⟩)
  | store _ _ _ _ _ form _ _ _ _ => cases form; cases hr
  | branch _ _ _ _ form _ => obtain rfl | rfl := form <;> cases hr
  | jump _ form => cases form; cases hr
  | jumpReg _ _ form _ => cases form; cases hr
  | link _ form => cases form; cases hr; exact .inr (.inr rfl)

/-- Settles O20: register 0 is no link register, so the effect is a fault or a discarded result. -/
theorem destinationZeroChangesOnlyPc : Obligations.DestinationZeroChangesOnlyPc := by
  intro i s t hdest hexec
  obtain ⟨c, rfl⟩ | ⟨v, rfl⟩ | h := (exec_effect hexec).of_destination hdest
  · exact .inr ⟨c, rfl⟩
  · exact .inl (s.onlyMovesPc_writeResult_zero v)
  · exact absurd h (by decide)

/-- Settles O19, from what a register holds after a write. -/
theorem registerZeroDiscardsWrites : Obligations.RegisterZeroDiscardsWrites := by
  refine fun s v => ⟨State.readReg_eq_ok.2 s.regCell_zero, if_pos rfl, fun r hr => ⟨?_, fun q hq => ?_⟩⟩
  · rw [State.readReg_eq_ok, State.regCell_writeReg, if_pos ⟨rfl, hr⟩]
  · rw [State.regCell_writeReg, if_neg fun h => hq h.1]

/-! ## The word `sw` stores (R23) -/

/-- A byte that an effect changes lies in the word of a `sw`. -/
theorem Effect.eq_sw_of_readByte_ne {i : Instr} {s t : State} {b : Nat} (h : Effect i s t)
    (hb : t.mem.readByte b ≠ s.mem.readByte b) :
    ∃ rt rs imm base, i = .sw rt rs imm ∧ s.regCell rs = .value base ∧
      (effectiveAddress base imm).toNat ≤ b ∧ b < (effectiveAddress base imm).toNat + 4 := by
  cases h with
  | store rt rs imm base v form hbase _ _ _ =>
    have hin : ¬(b < (effectiveAddress base imm).toNat ∨ (effectiveAddress base imm).toNat + 3 < b) :=
      fun hout => hb (Memory.readByte_writeWord_outside _ _ _ _ _ hout)
    exact ⟨rt, rs, imm, base, form, hbase, by omega, by omega⟩
  | result r v _ => rw [State.writeResult_mem] at hb; exact absurd rfl hb
  | link _ _ => rw [State.setPc_mem, State.writeReg_mem] at hb; exact absurd rfl hb
  | _ => exact absurd rfl hb

/-- Settles O28: the halt and a fault of fetch or decode leave memory, and only a `sw` has an effect on it. -/
theorem onlyStoreWordChangesMemory : Obligations.OnlyStoreWordChangesMemory := by
  intro s t b hstep hb
  obtain ⟨-, ⟨-, rfl⟩ | ⟨-, c, -, rfl⟩ | ⟨-, i, hi, hexec⟩⟩ := step_next hstep
  · exact absurd rfl hb
  · exact absurd rfl hb
  · obtain ⟨rt, rs, imm, base, rfl, hbase, hword⟩ := (exec_effect hexec).eq_sw_of_readByte_ne hb
    exact ⟨rt, rs, imm, base, hi, hbase, hword⟩

end Sys2Proof.Machine
end

section
/-! PROOFS. What an instruction reads (R14, R15). Two machines that differ in one register the instruction does not read
take the same step but for that register; and a fault `UnwrittenRegisterRead` names a register that is unwritten. -/

namespace Sys2Proof.Machine

open Sys2Proof.Certificates

/-! ## Machines that agree but for one register -/

/-- The same machine but for register `q`. -/
structure State.AgreeOff (q : RegNum) (s s' : State) : Prop where
  regs : ∀ r, r ≠ q → s'.regCell r = s.regCell r
  pc : s'.pc = s.pc
  mem : s'.mem = s.mem
  status : s'.status = s.status
  launch : s'.launch = s.launch

theorem State.agreeOff_writeReg (s : State) (q : RegNum) (v : Word) : State.AgreeOff q s (s.writeReg q v) where
  regs r hr := by rw [State.regCell_writeReg, if_neg fun h => hr h.1]
  pc := s.writeReg_pc q v
  mem := s.writeReg_mem q v
  status := s.writeReg_status q v
  launch := s.writeReg_launch q v

section
variable {q : RegNum} {s s' : State}

/-! The operations that read the state answer the same. -/

theorem State.AgreeOff.readReg_eq (h : State.AgreeOff q s s') {r : RegNum} (hr : r ≠ q) :
    s'.readReg r = s.readReg r := by
  rw [State.readReg, State.readReg, h.regs r hr, h.pc]

theorem State.AgreeOff.narrow_eq (h : State.AgreeOff q s s') (S : Int) : s'.narrow S = s.narrow S := by
  rw [State.narrow, State.narrow, h.launch, h.pc]

theorem State.AgreeOff.memRead_eq (h : State.AgreeOff q s s') (a : Word) : s'.memRead a = s.memRead a := by
  rw [State.memRead, State.memRead, h.launch, h.mem, h.pc]

/-! The operations that change the state keep the agreement. -/

theorem State.AgreeOff.takeFault (h : State.AgreeOff q s s') (c : Cause) :
    State.AgreeOff q (s.takeFault c) (s'.takeFault c) :=
  ⟨h.regs, h.pc, h.mem, rfl, h.launch⟩

theorem State.AgreeOff.setPc (h : State.AgreeOff q s s') (t : Word) : State.AgreeOff q (s.setPc t) (s'.setPc t) :=
  ⟨h.regs, rfl, h.mem, h.status, h.launch⟩

theorem State.AgreeOff.advance (h : State.AgreeOff q s s') : State.AgreeOff q s.advance s'.advance := by
  rw [State.advance, State.advance, h.pc]
  exact h.setPc _

theorem State.AgreeOff.writeReg (h : State.AgreeOff q s s') (r : RegNum) (v : Word) :
    State.AgreeOff q (s.writeReg r v) (s'.writeReg r v) where
  regs p hp := by rw [State.regCell_writeReg, State.regCell_writeReg, h.regs p hp]
  pc := by simpa using h.pc
  mem := by simpa using h.mem
  status := by simpa using h.status
  launch := by simpa using h.launch

theorem State.AgreeOff.writeResult (h : State.AgreeOff q s s') (r : RegNum) (v : Word) :
    State.AgreeOff q (s.writeResult r v) (s'.writeResult r v) :=
  (h.writeReg r v).advance

end

/-! ## Rules that agree but for one register -/

/-- Two rules raise the same fault, or both complete in machines that agree but for `q`. -/
inductive RulesAgree (q : RegNum) : Checked State → Checked State → Prop where
  | raise (c : Cause) : RulesAgree q (.error c) (.error c)
  | complete {t t' : State} (h : State.AgreeOff q t t') : RulesAgree q (.ok t) (.ok t')

/-- Two instructions answer next states that agree but for `q`. -/
def NextAgree (q : RegNum) (o o' : Host.Outcome State Fault Refusal) : Prop :=
  ∃ t t', o = .next t ∧ o' = .next t' ∧ State.AgreeOff q t t'

/-- The same first part, and rules that agree after each value it answers. -/
theorem RulesAgree.bind {α : Type} {q : RegNum} {x x' : Checked α} {f f' : α → Checked State} (hx : x' = x)
    (hf : ∀ a, RulesAgree q (f a) (f' a)) : RulesAgree q (x >>= f) (x' >>= f') := by
  subst hx
  cases x' with
  | error c => exact .raise c
  | ok a => exact hf a

section
variable {q : RegNum} {s s' : State}

theorem State.AgreeOff.complete (h : State.AgreeOff q s s') {x x' : Checked State} (hx : RulesAgree q x x') :
    NextAgree q (s.complete x) (s'.complete x') := by
  cases hx with
  | raise c => exact ⟨_, _, rfl, rfl, h.takeFault c⟩
  | complete ht => exact ⟨_, _, rfl, rfl, ht⟩

theorem State.AgreeOff.memWrite_advance (h : State.AgreeOff q s s') (a v : Word) :
    RulesAgree q (s.memWrite a v >>= fun t => pure t.advance) (s'.memWrite a v >>= fun t => pure t.advance) := by
  rw [State.memWrite, State.memWrite, h.launch, h.pc, h.mem]
  split
  · exact .raise _
  · split
    · exact .raise _
    · exact .complete (State.AgreeOff.advance ⟨h.regs, rfl, rfl, h.status, rfl⟩)

theorem State.AgreeOff.regReg (h : State.AgreeOff q s s') {rd rs rt : RegNum} {f f' : Word → Word → Checked Word}
    (hrs : rs ≠ q) (hrt : rt ≠ q) (hf : ∀ a b, f' a b = f a b) :
    NextAgree q (s.regReg rd rs rt f) (s'.regReg rd rs rt f') :=
  h.complete <| .bind (h.readReg_eq hrs) fun a => .bind (h.readReg_eq hrt) fun b =>
    .bind (hf a b) fun v => .complete (h.writeResult rd v)

theorem State.AgreeOff.regUnary (h : State.AgreeOff q s s') {rd rs : RegNum} {f f' : Word → Checked Word}
    (hrs : rs ≠ q) (hf : ∀ a, f' a = f a) : NextAgree q (s.regUnary rd rs f) (s'.regUnary rd rs f') :=
  h.complete <| .bind (h.readReg_eq hrs) fun a => .bind (hf a) fun v => .complete (h.writeResult rd v)

theorem State.AgreeOff.branchIf (h : State.AgreeOff q s s') {rs rt : RegNum} (imm : Imm) (taken : Word → Word → Bool)
    (hrs : rs ≠ q) (hrt : rt ≠ q) : NextAgree q (s.branchIf rs rt imm taken) (s'.branchIf rs rt imm taken) := by
  unfold State.branchIf
  rw [h.pc]
  exact h.complete <| .bind (h.readReg_eq hrs) fun a => .bind (h.readReg_eq hrt) fun b => .complete (h.setPc _)

/-- An instruction that does not read `q` keeps the agreement of two machines that differ in `q` alone (R15). -/
theorem State.AgreeOff.exec (h : State.AgreeOff q s s') {i : Instr} (hq : q ∉ sources i) :
    NextAgree q (exec i s) (exec i s') := by
  have hne : ∀ r ∈ sources i, r ≠ q := fun r hr heq => hq (heq ▸ hr)
  cases i with
  | add rd rs rt | sub rd rs rt =>
    exact h.regReg (hne rs (by simp [sources])) (hne rt (by simp [sources])) fun _ _ => h.narrow_eq _
  | and rd rs rt | or rd rs rt | xor rd rs rt | nor rd rs rt =>
    exact h.regReg (hne rs (by simp [sources])) (hne rt (by simp [sources])) fun _ _ => rfl
  | sll rd rt shamt | srl rd rt shamt | sra rd rt shamt => exact h.regUnary (hne rt (by simp [sources])) fun _ => rfl
  | andi rt rs imm | ori rt rs imm | xori rt rs imm => exact h.regUnary (hne rs (by simp [sources])) fun _ => rfl
  | addi rt rs imm => exact h.regUnary (hne rs (by simp [sources])) fun _ => h.narrow_eq _
  | lw rt rs imm => exact h.regUnary (hne rs (by simp [sources])) fun _ => h.memRead_eq _
  | sw rt rs imm =>
    exact h.complete <| .bind (h.readReg_eq (hne rs (by simp [sources]))) fun base =>
      .bind (h.readReg_eq (hne rt (by simp [sources]))) fun v => h.memWrite_advance _ v
  | beq rs rt imm | bne rs rt imm =>
    exact h.branchIf imm _ (hne rs (by simp [sources])) (hne rt (by simp [sources]))
  | jr rs => exact h.complete <| .bind (h.readReg_eq (hne rs (by simp [sources]))) fun a => .complete (h.setPc a)
  | lui rt imm => exact ⟨_, _, rfl, rfl, h.writeResult rt _⟩
  | j addr => exact ⟨_, _, rfl, by rw [Machine.exec, execJ, h.pc], h.setPc _⟩
  | jal addr => exact ⟨_, _, rfl, by rw [Machine.exec, execJal, h.pc], (h.writeReg _ _).setPc _⟩

end

/-- Settles O22: the machine with the unread register written agrees with the one without, before and after. -/
theorem unreadRegisterHasNoInfluence : Obligations.UnreadRegisterHasNoInfluence := by
  intro i s t q v hq hexec
  obtain ⟨u, t', hu, ht', hagree⟩ := (s.agreeOff_writeReg q v).exec hq
  cases hexec.symm.trans hu
  exact ⟨t', ht', hagree.pc, hagree.status, hagree.mem, hagree.regs⟩

/-! ## The fault `UnwrittenRegisterRead` -/

/-- If `t` has taken the fault `UnwrittenRegisterRead` of a register, that register is unwritten in `s` (R14). -/
def State.BlamesUnwritten (s t : State) : Prop :=
  ∀ pc r, t.status = .faulted (.unwrittenRegisterRead pc r) → s.regCell r = .unwritten

section
variable {s t : State}

theorem State.blamesUnwritten_of_running (ht : t.status = .running) : s.BlamesUnwritten t :=
  fun _ _ h => nomatch ht.symm.trans h

theorem State.blamesUnwritten_readReg {r : RegNum} (hr : s.regCell r = .unwritten) :
    s.BlamesUnwritten (s.takeFault (.unwrittenRegisterRead s.pc r)) := by
  intro _ _ h
  cases h
  exact hr

theorem State.blamesUnwritten_takeFault {c : Cause} (hc : ∀ pc r, c ≠ .unwrittenRegisterRead pc r) :
    s.BlamesUnwritten (s.takeFault c) :=
  fun pc r h => absurd (Status.faulted.inj h) (hc pc r)

/-! Neither the arithmetic law, nor memory, nor a fetch or the decoder raises `UnwrittenRegisterRead`. -/

theorem State.narrow_error_ne {S : Int} {c : Cause} (h : s.narrow S = .error c) (pc : Word) (r : RegNum) :
    c ≠ .unwrittenRegisterRead pc r := by
  rintro rfl
  obtain ⟨-, -, h'⟩ | ⟨-, h'⟩ := s.narrow_cases S <;> cases h'.symm.trans h

theorem State.memRead_error_ne {a : Word} {c : Cause} (h : s.memRead a = .error c) (pc : Word) (r : RegNum) :
    c ≠ .unwrittenRegisterRead pc r := by
  rintro rfl
  obtain ⟨-, h'⟩ | ⟨-, -, h'⟩ | ⟨-, -, -, h'⟩ | ⟨-, -, v, -, h'⟩ := s.memRead_cases a <;> cases h'.symm.trans h

theorem State.memWrite_error_ne {a v : Word} {c : Cause} (h : s.memWrite a v = .error c) (pc : Word) (r : RegNum) :
    c ≠ .unwrittenRegisterRead pc r := by
  rintro rfl
  obtain ⟨-, h'⟩ | ⟨-, -, h'⟩ | ⟨-, -, h'⟩ := s.memWrite_cases a v <;> cases h'.symm.trans h

theorem State.nextInstr_error_ne {c : Cause} (h : s.nextInstr = .error c) (pc : Word) (r : RegNum) :
    c ≠ .unwrittenRegisterRead pc r := by
  rintro rfl
  obtain hf | ⟨w, e, -, -, hc⟩ := State.nextInstr_eq_error h
  · obtain ⟨-, h'⟩ | ⟨-, h'⟩ | ⟨-, -, w, -, h'⟩ := s.fetch_cases s.pc <;> cases h'.symm.trans hf
  · cases hc

/-! The instruction shapes, on a running machine. -/

theorem State.blamesUnwritten_regReg {rd rs rt : RegNum} {f : Word → Word → Checked Word} (hs : s.status = .running)
    (hf : ∀ a b c, f a b = .error c → ∀ pc r, c ≠ .unwrittenRegisterRead pc r) (h : s.regReg rd rs rt f = .next t) :
    s.BlamesUnwritten t := by
  obtain ⟨a, b, v, -, -, -, rfl⟩ | ⟨c, rfl, ⟨hr, rfl⟩ | ⟨a, -, ⟨hr, rfl⟩ | ⟨b, -, hc⟩⟩⟩ := State.regReg_next h
  · exact State.blamesUnwritten_of_running ((s.writeResult_status rd v).trans hs)
  · exact State.blamesUnwritten_readReg hr
  · exact State.blamesUnwritten_readReg hr
  · exact State.blamesUnwritten_takeFault (hf a b c hc)

theorem State.blamesUnwritten_regUnary {rd rs : RegNum} {f : Word → Checked Word} (hs : s.status = .running)
    (hf : ∀ a c, f a = .error c → ∀ pc r, c ≠ .unwrittenRegisterRead pc r) (h : s.regUnary rd rs f = .next t) :
    s.BlamesUnwritten t := by
  obtain ⟨a, v, -, -, rfl⟩ | ⟨c, rfl, ⟨hr, rfl⟩ | ⟨a, -, hc⟩⟩ := State.regUnary_next h
  · exact State.blamesUnwritten_of_running ((s.writeResult_status rd v).trans hs)
  · exact State.blamesUnwritten_readReg hr
  · exact State.blamesUnwritten_takeFault (hf a c hc)

theorem State.blamesUnwritten_branchIf {rs rt : RegNum} {imm : Imm} {taken : Word → Word → Bool}
    (hs : s.status = .running) (h : s.branchIf rs rt imm taken = .next t) : s.BlamesUnwritten t := by
  obtain ⟨a, b, -, -, rfl⟩ | ⟨c, rfl, ⟨hr, rfl⟩ | ⟨a, -, hr, rfl⟩⟩ := State.branchIf_next h
  · exact State.blamesUnwritten_of_running hs
  · exact State.blamesUnwritten_readReg hr
  · exact State.blamesUnwritten_readReg hr

theorem execSw_blamesUnwritten {rt rs : RegNum} {imm : Imm} (hs : s.status = .running)
    (h : execSw rt rs imm s = .next t) : s.BlamesUnwritten t := by
  obtain ⟨base, v, u, -, -, hu, rfl⟩ | ⟨c, rfl, ⟨hr, rfl⟩ | ⟨base, -, ⟨hr, rfl⟩ | ⟨v, -, hc⟩⟩⟩ := execSw_next h
  · obtain ⟨-, hw⟩ | ⟨-, -, hw⟩ | ⟨-, -, hw⟩ := s.memWrite_cases (effectiveAddress base imm) v
    · cases hw.symm.trans hu
    · cases hw.symm.trans hu
    · cases hw.symm.trans hu
      exact State.blamesUnwritten_of_running hs
  · exact State.blamesUnwritten_readReg hr
  · exact State.blamesUnwritten_readReg hr
  · exact State.blamesUnwritten_takeFault (State.memWrite_error_ne hc)

theorem execJr_blamesUnwritten {rs : RegNum} (hs : s.status = .running) (h : execJr rs s = .next t) :
    s.BlamesUnwritten t := by
  obtain h | ⟨c, hc, rfl⟩ := State.complete_next h
  · obtain ⟨a, -, h⟩ := checked_bind_ok h
    cases h
    exact State.blamesUnwritten_of_running hs
  · obtain hc | ⟨a, -, hc⟩ := checked_bind_error hc
    · obtain ⟨hr, rfl⟩ := State.readReg_eq_error.1 hc
      exact State.blamesUnwritten_readReg hr
    · cases hc

/-- An instruction of a running machine takes `UnwrittenRegisterRead` for an unwritten register alone (R14). -/
theorem exec_blamesUnwritten {i : Instr} (hs : s.status = .running) (h : exec i s = .next t) : s.BlamesUnwritten t := by
  cases i with
  | add _ _ _ | sub _ _ _ => exact State.blamesUnwritten_regReg hs (fun _ _ _ => State.narrow_error_ne) h
  | and _ _ _ | or _ _ _ | xor _ _ _ | nor _ _ _ => exact State.blamesUnwritten_regReg hs (fun _ _ _ h => by cases h) h
  | sll _ _ _ | srl _ _ _ | sra _ _ _ | andi _ _ _ | ori _ _ _ | xori _ _ _ =>
    exact State.blamesUnwritten_regUnary hs (fun _ _ h => by cases h) h
  | addi _ _ _ => exact State.blamesUnwritten_regUnary hs (fun _ _ => State.narrow_error_ne) h
  | lw _ _ _ => exact State.blamesUnwritten_regUnary hs (fun _ _ => State.memRead_error_ne) h
  | sw _ _ _ => exact execSw_blamesUnwritten hs h
  | beq _ _ _ | bne _ _ _ => exact State.blamesUnwritten_branchIf hs h
  | jr _ => exact execJr_blamesUnwritten hs h
  | j _ => cases h; exact State.blamesUnwritten_of_running hs
  | jal _ => cases h; exact State.blamesUnwritten_of_running (by simpa using hs)
  | lui _ _ => cases h; exact State.blamesUnwritten_of_running (by simpa using hs)

/-- A step that ends in `UnwrittenRegisterRead` began with that register unwritten (R14). -/
theorem step_blamesUnwritten (h : step s = .next t) : s.BlamesUnwritten t := by
  obtain ⟨hs, ⟨-, rfl⟩ | ⟨-, c, hc, rfl⟩ | ⟨-, i, -, hexec⟩⟩ := step_next h
  · exact fun _ _ hh => nomatch hh
  · exact State.blamesUnwritten_takeFault (State.nextInstr_error_ne hc)
  · exact exec_blamesUnwritten hs hexec

end

/-- Settles O24: a step leaves a written register written, and the fault would name an unwritten one. -/
theorem writtenMachineNeverReadsUnwritten : Obligations.WrittenMachineNeverReadsUnwritten :=
  fun s t hall hstep =>
    ⟨fun r => writtenRegistersStayWritten s t r hstep (hall r), fun pc r hc => hall r (step_blamesUnwritten hstep pc r hc)⟩

end Sys2Proof.Machine
end

section
/-! PROOFS. The values of the state at launch (R24), and the placing of an instruction (log entries 2 and 25). -/

namespace Sys2Proof.Machine

/-! ## A list of writes, one after the other

`REGS0` and `MEM0` are lists of writes, each to its own place. `get` reads the place of the key `k`. -/

section
variable {α β σ γ : Type} {f : σ → α × β → σ} {get : σ → γ} {k : α}

/-- Writes to other places leave the place of `k`. -/
theorem foldl_get_of_ne {l : List (α × β)} (hother : ∀ s, ∀ p ∈ l, p.1 ≠ k → get (f s p) = get s)
    (hk : k ∉ l.map Prod.fst) (s : σ) : get (l.foldl f s) = get s :=
  List.foldlRecOn (motive := fun u => get u = get s) l f rfl fun u hu p hp =>
    (hother u p hp fun h => hk (List.mem_map.2 ⟨p, hp, h⟩)).trans hu

/-- The one write to the place of `k` is what is read there after all of them. -/
theorem foldl_get_of_mem {l : List (α × β)} {v : β} {c : γ}
    (hother : ∀ s, ∀ p ∈ l, p.1 ≠ k → get (f s p) = get s) (hsame : ∀ s, get (f s (k, v)) = c)
    (hnodup : (l.map Prod.fst).Nodup) (hmem : (k, v) ∈ l) (s : σ) : get (l.foldl f s) = c := by
  induction l generalizing s with
  | nil => cases hmem
  | cons p rest ih =>
    have hrest : ∀ s, ∀ p ∈ rest, p.1 ≠ k → get (f s p) = get s :=
      fun s p hp => hother s p (List.mem_cons_of_mem _ hp)
    rw [List.map_cons, List.nodup_cons] at hnodup
    obtain ⟨hp, hnodup⟩ := hnodup
    rw [List.foldl_cons]
    obtain rfl | hmem := List.mem_cons.1 hmem
    · exact (foldl_get_of_ne hrest hp _).trans (hsame s)
    · exact ih hrest hnodup hmem _

end

theorem notMem_map_fst {α β : Type} {l : List (α × β)} {k : α} (h : ∀ v, (k, v) ∉ l) : k ∉ l.map Prod.fst :=
  fun hk => by
    obtain ⟨⟨_, v⟩, hp, rfl⟩ := List.mem_map.1 hk
    exact h v hp

/-! ## Registers at launch -/

theorem regs0Wf_iff (regs0 : List (RegNum × Word)) :
    regs0Wf regs0 = true ↔ (regs0.map Prod.fst).Nodup ∧ ∀ p ∈ regs0, p.1 ≠ 0#5 := by
  rw [regs0Wf, Bool.and_eq_true, decide_eq_true_eq, List.all_eq_true]
  simp only [decide_eq_true_eq]
  rfl

/-- A write of `launchRegs` to another register leaves this one. -/
theorem launchRegs_write_ne {p : RegNum × Word} {r : RegNum} (h : p.1 ≠ r) (x : Vector RegCell 32) :
    (if p.1 = 0#5 then x else x.set p.1.toNat (.value p.2) p.1.isLt)[r.toNat]'r.isLt = x[r.toNat]'r.isLt := by
  split
  · rfl
  · exact Vector.getElem_set_ne _ _ fun he => h (BitVec.eq_of_toNat_eq he)

theorem launchRegs_getElem_of_mem {regs0 : List (RegNum × Word)} {r : RegNum} {v : Word} (hr : r ≠ 0#5)
    (hnodup : (regs0.map Prod.fst).Nodup) (hmem : (r, v) ∈ regs0) : (launchRegs regs0)[r.toNat]'r.isLt = .value v :=
  foldl_get_of_mem (get := fun x : Vector RegCell 32 => x[r.toNat]'r.isLt)
    (fun x _ _ hne => launchRegs_write_ne hne x) (fun x => by simp [hr]) hnodup hmem _

theorem launchRegs_getElem_of_notMem {regs0 : List (RegNum × Word)} {r : RegNum} (hr : r ≠ 0#5)
    (h : r ∉ regs0.map Prod.fst) : (launchRegs regs0)[r.toNat]'r.isLt = .unwritten := by
  have hne : 0 ≠ r.toNat := fun he => hr (BitVec.eq_of_toNat_eq he.symm)
  refine (foldl_get_of_ne (get := fun x : Vector RegCell 32 => x[r.toNat]'r.isLt)
    (fun x _ _ hne => launchRegs_write_ne hne x) h _).trans ?_
  rw [Vector.getElem_set_ne _ _ hne, Vector.getElem_replicate]

theorem State.atLaunch_regCell (l : Launch) (regs0 : List (RegNum × Word)) (mem0 : List (Word × Word)) {r : RegNum}
    (hr : r ≠ 0#5) : (State.atLaunch l regs0 mem0).regCell r = (launchRegs regs0)[r.toNat]'r.isLt :=
  if_neg hr

/-! ## Memory at launch -/

/-- A word stored at one aligned address leaves the word at another. -/
theorem Memory.readWord_writeWord_aligned_ne {a b : Word} (ha : a.toNat % 4 = 0) (hb : b.toNat % 4 = 0) (hne : b ≠ a)
    (e : Endian) (m : Memory) (v : Word) : (m.writeWord e b.toNat v).readWord e a.toNat = m.readWord e a.toNat := by
  have : b.toNat ≠ a.toNat := fun h => hne (BitVec.eq_of_toNat_eq h)
  exact Memory.readWord_writeWord_other _ _ _ _ _ _ (by omega)

section
variable {e : Endian} {mem0 : List (Word × Word)} {a : Word} (haligned : ∀ p ∈ mem0, p.1.toNat % 4 = 0)
include haligned

theorem launchMem_readWord_of_mem {v : Word} (hnodup : (mem0.map Prod.fst).Nodup) (hmem : (a, v) ∈ mem0) :
    (launchMem e mem0).readWord e a.toNat = some v :=
  foldl_get_of_mem (get := fun m : Memory => m.readWord e a.toNat)
    (fun m p hp hne => Memory.readWord_writeWord_aligned_ne (haligned (a, v) hmem) (haligned p hp) hne e m p.2)
    (fun m => Memory.readWord_writeWord_same e m a.toNat v) hnodup hmem _

theorem launchMem_readWord_of_notMem (ha : a.toNat % 4 = 0) (h : a ∉ mem0.map Prod.fst) :
    (launchMem e mem0).readWord e a.toNat = none :=
  foldl_get_of_ne (get := fun m : Memory => m.readWord e a.toNat)
    (fun m p hp hne => Memory.readWord_writeWord_aligned_ne ha (haligned p hp) hne e m p.2) h _

end

/-- Settles O34: each register and each word is written once at most, so it holds what `REGS0` and `MEM0` give it. -/
theorem launchValues : Obligations.LaunchValues := by
  refine ⟨rfl, fun l regs0 mem0 _ hregs0 hmem0 => ?_⟩
  obtain ⟨hregsNodup, hregsNonzero⟩ := (regs0Wf_iff regs0).1 hregs0
  obtain ⟨hmemNodup, hmemData⟩ := (mem0Wf_iff l mem0).1 hmem0
  have haligned : ∀ p ∈ mem0, p.1.toNat % 4 = 0 := fun p hp => ((Launch.inData_iff l _).1 (hmemData p hp)).1
  refine ⟨State.regCell_zero _, fun r v h => ?given, fun r hr h => ?left, rfl, fun a v h => ?word,
    fun a ha h => ?noWord, rfl, rfl⟩
  case given =>
    have hr : r ≠ 0#5 := hregsNonzero (r, v) h
    rw [State.atLaunch_regCell l regs0 mem0 hr, launchRegs_getElem_of_mem hr hregsNodup h]
  case left => rw [State.atLaunch_regCell l regs0 mem0 hr, launchRegs_getElem_of_notMem hr (notMem_map_fst h)]
  case word => exact launchMem_readWord_of_mem haligned hmemNodup h
  case noWord => exact launchMem_readWord_of_notMem haligned ha (notMem_map_fst h)

/-! ## Placing an instruction -/

theorem decodeTableWord_eq_some {nbits w : Nat} {i : Instr} (h : decodeTableWord nbits w = some i) :
    decode (tableWord nbits w) = .ok i := by
  unfold decodeTableWord at h
  split at h
  next k hk => rw [hk, Option.some.inj h]
  next => cases h

@[simp] theorem State.placeWord_status (s : State) (w : Word) : (s.placeWord w).status = .running := by
  unfold State.placeWord
  split <;> rfl

/-- Clearing the two low bits makes an address aligned. -/
theorem clearLow_aligned (a : Word) : isAligned (a &&& 0xFFFFFFFC#32) = true := by
  unfold isAligned
  rw [BitVec.extractLsb'_and]
  simp

/-- A program of one word is fetched from where it stands. -/
theorem State.fetch_single {s : State} {w : Word} (hal : isAligned s.pc = true) (hb : s.launch.textBase = s.pc)
    (hp : s.launch.prog = [w]) : s.fetch s.pc = .ok w :=
  State.fetch_word (k := 0) (by rw [hb]; exact (isAligned_iff _).1 hal) (by rw [hp]; rfl) (by simp [hb])

/-- The word placed is the one fetched at the `pc`, whether it replaces a word of the text or becomes the text. -/
theorem State.fetch_placeWord (s : State) (w : Word) : (s.placeWord w).fetch (s.placeWord w).pc = .ok w := by
  unfold State.placeWord
  split
  next h =>
    rw [Bool.and_eq_true] at h
    obtain ⟨hal, hin⟩ := h
    have hlt := (Launch.inText_iff _ _).1 hin
    have hidx : (s.pc.toNat - s.launch.textBase.toNat) / 4 < s.launch.prog.length := by omega
    have hin' : Launch.inText { s.launch with
        prog := s.launch.prog.set ((s.pc.toNat - s.launch.textBase.toNat) / 4) w } s.pc.toNat = true := by
      rw [Launch.inText_iff, List.length_set]
      exact hlt
    simp [State.fetch, hal, hin', hidx]
  next => exact State.fetch_single (clearLow_aligned s.pc) rfl rfl

/-- Settles O36: the machine is running and fetches the word placed. -/
theorem placedInstructionRunsNext : Obligations.PlacedInstructionRunsNext :=
  fun s nbits w _ h => step_eq_exec (s.placeWord_status (tableWord nbits w)) (s.fetch_placeWord (tableWord nbits w))
    (decodeTableWord_eq_some h)

end Sys2Proof.Machine
end

section
/-! PROOFS. Memory access: what `Fetch`, `MemRead` and `MemWrite` answer (R34 to R36), a `lw` after a `sw` (R39), and
data accesses to the text (R41). -/

namespace Sys2Proof.Machine

open Sys2Proof.Certificates

/-! ## What the memory operations answer, test by test -/

theorem isAligned_eq_false_iff (a : Word) : isAligned a = false ↔ a.toNat % 4 ≠ 0 := by
  rw [← Bool.not_eq_true, isAligned_iff]

/-- The word at an aligned address after a word is stored at an aligned one (R35). -/
theorem Memory.readWord_writeWord_aligned {a b : Word} (ha : a.toNat % 4 = 0) (hb : b.toNat % 4 = 0) (e : Endian)
    (m : Memory) (v : Word) :
    (m.writeWord e a.toNat v).readWord e b.toNat = if b = a then some v else m.readWord e b.toNat := by
  split
  next h => rw [h, Memory.readWord_writeWord_same]
  next h => exact Memory.readWord_writeWord_aligned_ne hb ha (Ne.symm h) e m v

section
variable {s : State} {a : Word}

theorem State.memRead_misaligned (ha : a.toNat % 4 ≠ 0) : s.memRead a = .error (.loadMisaligned s.pc a) := by
  simp [State.memRead, (isAligned_eq_false_iff a).2 ha]

theorem State.memRead_notAdmitted (ha : a.toNat % 4 = 0) (hd : s.launch.inData a.toNat = false) :
    s.memRead a = .error (.loadNotAdmitted s.pc a) := by
  simp [State.memRead, (isAligned_iff a).2 ha, hd]

theorem State.memRead_unwritten (ha : a.toNat % 4 = 0) (hd : s.launch.inData a.toNat = true)
    (hm : s.mem.readWord s.launch.endian a.toNat = none) : s.memRead a = .error (.unwrittenMemoryRead s.pc a) := by
  simp [State.memRead, (isAligned_iff a).2 ha, hd, hm]

theorem State.memRead_word {v : Word} (ha : a.toNat % 4 = 0) (hd : s.launch.inData a.toNat = true)
    (hm : s.mem.readWord s.launch.endian a.toNat = some v) : s.memRead a = .ok v := by
  simp [State.memRead, (isAligned_iff a).2 ha, hd, hm]

theorem State.memWrite_misaligned (ha : a.toNat % 4 ≠ 0) (v : Word) :
    s.memWrite a v = .error (.storeMisaligned s.pc a) := by
  simp [State.memWrite, (isAligned_eq_false_iff a).2 ha]

theorem State.memWrite_notAdmitted (ha : a.toNat % 4 = 0) (hd : s.launch.inData a.toNat = false) (v : Word) :
    s.memWrite a v = .error (.storeNotAdmitted s.pc a) := by
  simp [State.memWrite, (isAligned_iff a).2 ha, hd]

theorem State.memWrite_word (ha : a.toNat % 4 = 0) (hd : s.launch.inData a.toNat = true) (v : Word) :
    s.memWrite a v = .ok { s with mem := s.mem.writeWord s.launch.endian a.toNat v } := by
  simp [State.memWrite, (isAligned_iff a).2 ha, hd]

theorem State.fetch_misaligned (ha : a.toNat % 4 ≠ 0) : s.fetch a = .error (.fetchMisaligned a) := by
  simp [State.fetch, (isAligned_eq_false_iff a).2 ha]

end

/-- Settles O8, by the tests of R36 in their order. -/
theorem fetchRule : Obligations.FetchRule := by
  refine fun s a hbase => ⟨State.fetch_misaligned, fun hal hout => ?outside, ?word⟩
  case outside => exact State.fetch_outside ((isAligned_iff a).2 hal) ((Launch.inText_eq_false_iff _ _).2 hout)
  case word =>
    rintro w ⟨k, hk, ha⟩
    exact State.fetch_word hbase hk ha

/-- Settles O25, by the tests of R34 in their order. -/
theorem memReadRule : Obligations.MemReadRule :=
  fun _ _ => ⟨State.memRead_misaligned, State.memRead_notAdmitted, State.memRead_unwritten, fun _ => State.memRead_word,
    Launch.inData_of_inText⟩

/-- Settles O26, by the tests of R35 in their order: the words of one memory do not overlap. -/
theorem memWriteRule : Obligations.MemWriteRule := by
  refine fun s a v => ⟨fun ha => State.memWrite_misaligned ha v, fun ha hd => State.memWrite_notAdmitted ha hd v,
    fun ha hd => ⟨_, State.memWrite_word ha hd v, Memory.readWord_writeWord_same _ _ _ _, fun b hb hne => ?other⟩,
    Launch.inData_of_inText⟩
  case other => rw [Memory.readWord_writeWord_aligned ha hb, if_neg hne]

/-! ## What `lw` and `sw` answer -/

/-- A one-source form whose register holds a value takes the fault its function raises. -/
theorem State.regUnary_error {s : State} {rd rs : RegNum} {f : Word → Checked Word} {a : Word} {c : Cause}
    (ha : s.regCell rs = .value a) (hf : f a = .error c) : s.regUnary rd rs f = .next (s.takeFault c) := by
  unfold State.regUnary
  rw [State.readReg_eq_ok.2 ha]
  simp [bind, Except.bind, hf]

/-- Writing a result changes one register and the `pc` (R13, R17). -/
theorem State.writesReg_writeResult (s : State) (r : RegNum) (v : Word) :
    s.WritesReg (s.writeResult r v) r v (s.pc + 4#32) where
  regs q := s.regCell_writeResult r q v
  pc := s.writeResult_pc r v
  mem b := by rw [s.writeResult_mem r v]
  status := s.writeResult_status r v
  launch := s.writeResult_launch r v

/-- Storing a word and advancing changes one word and the `pc` (R17, R35). -/
theorem State.storesWord_advance (s : State) (a v : Word) :
    s.StoresWord ({ s with mem := s.mem.writeWord s.launch.endian a.toNat v } : State).advance a v (s.pc + 4#32) where
  regs _ := rfl
  pc := rfl
  word := Memory.readWord_writeWord_same _ _ _ v
  mem b hb := Memory.readByte_writeWord_outside _ _ _ b v (by omega)
  status := rfl
  launch := rfl

section
variable {s : State} {rt rs : RegNum} {imm : Imm} {base v : Word} (hbase : s.regCell rs = .value base)
include hbase

theorem exec_lw_ok (hm : s.memRead (base + imm.signExtend 32) = .ok v) :
    exec (.lw rt rs imm) s = .next (s.writeResult rt v) :=
  State.regUnary_ok hbase hm

theorem exec_lw_raises {c : Cause} (hm : s.memRead (base + imm.signExtend 32) = .error c) :
    Raises (.lw rt rs imm) s c :=
  State.regUnary_error hbase hm

/-- A `sw` whose registers hold values ends as its `MemWrite` does. -/
theorem exec_sw_eq (hv : s.regCell rt = .value v) : exec (.sw rt rs imm) s =
    s.complete (s.memWrite (base + imm.signExtend 32) v >>= fun t => pure t.advance) := by
  rw [exec, execSw, State.readReg_eq_ok.2 hbase, State.readReg_eq_ok.2 hv]
  rfl

/-- A `sw` to an admitted address stores its word there and changes nothing else but the `pc` (R92). -/
theorem exec_sw_stores (hv : s.regCell rt = .value v) (hal : (base + imm.signExtend 32).toNat % 4 = 0)
    (hdata : s.launch.inData (base + imm.signExtend 32).toNat = true) :
    ∃ t, exec (.sw rt rs imm) s = .next t ∧ s.StoresWord t (base + imm.signExtend 32) v (s.pc + 4#32) := by
  refine ⟨_, ?_, s.storesWord_advance _ v⟩
  rw [exec_sw_eq hbase hv, State.memWrite_word hal hdata v]
  rfl

theorem exec_sw_raises {c : Cause} (hv : s.regCell rt = .value v)
    (hm : s.memWrite (base + imm.signExtend 32) v = .error c) : Raises (.sw rt rs imm) s c := by
  rw [Raises, exec_sw_eq hbase hv, hm]
  rfl

end

/-- Settles O27: the memory after the store has the word stored at that address, and the address stays admitted. -/
theorem loadReturnsTheStoredWord : Obligations.LoadReturnsTheStoredWord := by
  intro s rt rs imm base v hbase hv hal hdata
  obtain ⟨t, hsw, hstored⟩ := exec_sw_stores hbase hv hal hdata
  refine ⟨t, hsw, fun rt' rs' imm' base' hbase' haddr => ?_⟩
  rw [← hstored.launch] at hdata
  have hread := State.memRead_word hal hdata hstored.word
  exact ⟨_, exec_lw_ok hbase' (haddr ▸ hread), t.writesReg_writeResult rt' v⟩

/-- Settles O29: no address of the text is in `DATA_REGION`. -/
theorem dataAccessToTextFaults : Obligations.DataAccessToTextFaults := by
  intro s rt rs imm base v hbase hal htext
  have hdata : s.launch.inData (base + imm.signExtend 32).toNat = false := Launch.inData_of_inText htext
  exact ⟨exec_lw_raises hbase (State.memRead_notAdmitted hal hdata),
    fun hv => exec_sw_raises hbase hv (State.memWrite_notAdmitted hal hdata v)⟩

end Sys2Proof.Machine
end

section
/-! PROOFS. The byte order cannot be observed (R37): `SameButByteOrder` is a simulation. Everything a step reads it
reads through registers, `pc`, status, the other parameters and whole words, which two such machines share. -/

namespace Sys2Proof.Machine

section
variable {s s' : State}

/-! ## What a step reads is the same in either byte order -/

theorem SameButByteOrder.readReg_eq (h : SameButByteOrder s s') (r : RegNum) : s.readReg r = s'.readReg r := by
  rw [State.readReg, State.readReg, h.regs r, h.pc]

theorem SameButByteOrder.narrow_eq (h : SameButByteOrder s s') (S : Int) : s.narrow S = s'.narrow S := by
  rw [State.narrow, State.narrow, h.overflow, h.pc]

theorem SameButByteOrder.inData_eq (h : SameButByteOrder s s') (a : Nat) : s.launch.inData a = s'.launch.inData a :=
  Launch.inData_congr h.textBase h.prog h.dataRegion a

/-- A load asks for the word only where the address is aligned, and there the two machines hold the same word. -/
theorem SameButByteOrder.memRead_eq (h : SameButByteOrder s s') (a : Word) : s.memRead a = s'.memRead a := by
  rw [State.memRead, State.memRead, h.pc, h.inData_eq]
  cases hal : isAligned a with
  | false => rfl
  | true => rw [h.words a hal]

theorem SameButByteOrder.fetch_eq (h : SameButByteOrder s s') (a : Word) : s.fetch a = s'.fetch a := by
  unfold State.fetch Launch.inText Launch.textEnd
  rw [h.textBase, h.prog]

theorem SameButByteOrder.nextInstr_eq (h : SameButByteOrder s s') : s.nextInstr = s'.nextInstr := by
  unfold State.nextInstr
  rw [h.pc, h.fetch_eq]

theorem SameButByteOrder.atTextEnd_eq (h : SameButByteOrder s s') : s.atTextEnd = s'.atTextEnd := by
  unfold State.atTextEnd Launch.textEnd
  rw [h.pc, h.textBase, h.prog]

/-! ## What a step changes keeps the machines the same but for the byte order -/

theorem SameButByteOrder.halt (h : SameButByteOrder s s') : SameButByteOrder s.halt s'.halt :=
  { h with status := rfl }

theorem SameButByteOrder.takeFault (h : SameButByteOrder s s') (c : Cause) :
    SameButByteOrder (s.takeFault c) (s'.takeFault c) :=
  { h with status := rfl }

theorem SameButByteOrder.setPc (h : SameButByteOrder s s') (t : Word) : SameButByteOrder (s.setPc t) (s'.setPc t) :=
  { h with pc := rfl }

theorem SameButByteOrder.advance (h : SameButByteOrder s s') : SameButByteOrder s.advance s'.advance := by
  rw [State.advance, State.advance, h.pc]
  exact h.setPc _

theorem SameButByteOrder.writeReg (h : SameButByteOrder s s') (r : RegNum) (v : Word) :
    SameButByteOrder (s.writeReg r v) (s'.writeReg r v) where
  regs q := by rw [State.regCell_writeReg, State.regCell_writeReg, h.regs q]
  pc := by simpa using h.pc
  status := by simpa using h.status
  textBase := by simpa using h.textBase
  prog := by simpa using h.prog
  dataRegion := by simpa using h.dataRegion
  overflow := by simpa using h.overflow
  words := by simpa using h.words

theorem SameButByteOrder.writeResult (h : SameButByteOrder s s') (r : RegNum) (v : Word) :
    SameButByteOrder (s.writeResult r v) (s'.writeResult r v) :=
  (h.writeReg r v).advance

/-- The same word stored at the same aligned address, each machine in its own byte order. -/
theorem SameButByteOrder.storeWord (h : SameButByteOrder s s') {a : Word} (ha : a.toNat % 4 = 0) (v : Word) :
    SameButByteOrder { s with mem := s.mem.writeWord s.launch.endian a.toNat v }
      { s' with mem := s'.mem.writeWord s'.launch.endian a.toNat v } :=
  { h with
    words := fun b hb => by
      have hb4 := (isAligned_iff b).1 hb
      rw [Memory.readWord_writeWord_aligned ha hb4, Memory.readWord_writeWord_aligned ha hb4, h.words b hb] }

end

/-! ## Rules related by a relation of machines -/

/-- Two rules raise the same fault, or both complete in machines that `R` relates. (`RulesAgree q` is this at the one
relation `State.AgreeOff q`.) -/
inductive RulesRelated (R : State → State → Prop) : Checked State → Checked State → Prop where
  | raise (c : Cause) : RulesRelated R (.error c) (.error c)
  | complete {t t' : State} (h : R t t') : RulesRelated R (.ok t) (.ok t')

/-- Two instructions or steps answer next states that `R` relates. -/
def NextRelated (R : State → State → Prop) (o o' : Host.Outcome State Fault Refusal) : Prop :=
  ∃ t t', o = .next t ∧ o' = .next t' ∧ R t t'

/-- The same first part, and related rules after each value it answers. -/
theorem RulesRelated.bind {α : Type} {R : State → State → Prop} {x x' : Checked α} {f f' : α → Checked State}
    (hx : x = x') (hf : ∀ a, RulesRelated R (f a) (f' a)) : RulesRelated R (x >>= f) (x' >>= f') := by
  subst hx
  cases x with
  | error c => exact .raise c
  | ok a => exact hf a

section
variable {s s' : State}

theorem SameButByteOrder.complete (h : SameButByteOrder s s') {x x' : Checked State}
    (hx : RulesRelated SameButByteOrder x x') : NextRelated SameButByteOrder (s.complete x) (s'.complete x') := by
  cases hx with
  | raise c => exact ⟨_, _, rfl, rfl, h.takeFault c⟩
  | complete ht => exact ⟨_, _, rfl, rfl, ht⟩

theorem SameButByteOrder.memWrite_advance (h : SameButByteOrder s s') (a v : Word) :
    RulesRelated SameButByteOrder (s.memWrite a v >>= fun t => pure t.advance)
      (s'.memWrite a v >>= fun t => pure t.advance) := by
  by_cases ha : a.toNat % 4 = 0
  · cases hd : s.launch.inData a.toNat with
    | false =>
      rw [State.memWrite_notAdmitted ha hd, State.memWrite_notAdmitted ha (h.inData_eq _ ▸ hd), h.pc]
      exact .raise _
    | true =>
      rw [State.memWrite_word ha hd, State.memWrite_word ha (h.inData_eq _ ▸ hd)]
      exact .complete (h.storeWord ha v).advance
  · rw [State.memWrite_misaligned ha, State.memWrite_misaligned ha, h.pc]
    exact .raise _

theorem SameButByteOrder.regReg (h : SameButByteOrder s s') {rd rs rt : RegNum} {f f' : Word → Word → Checked Word}
    (hf : ∀ a b, f a b = f' a b) : NextRelated SameButByteOrder (s.regReg rd rs rt f) (s'.regReg rd rs rt f') :=
  h.complete <| .bind (h.readReg_eq rs) fun a => .bind (h.readReg_eq rt) fun b =>
    .bind (hf a b) fun v => .complete (h.writeResult rd v)

theorem SameButByteOrder.regUnary (h : SameButByteOrder s s') {rd rs : RegNum} {f f' : Word → Checked Word}
    (hf : ∀ a, f a = f' a) : NextRelated SameButByteOrder (s.regUnary rd rs f) (s'.regUnary rd rs f') :=
  h.complete <| .bind (h.readReg_eq rs) fun a => .bind (hf a) fun v => .complete (h.writeResult rd v)

theorem SameButByteOrder.branchIf (h : SameButByteOrder s s') (rs rt : RegNum) (imm : Imm)
    (taken : Word → Word → Bool) :
    NextRelated SameButByteOrder (s.branchIf rs rt imm taken) (s'.branchIf rs rt imm taken) := by
  unfold State.branchIf
  rw [h.pc]
  exact h.complete <| .bind (h.readReg_eq rs) fun a => .bind (h.readReg_eq rt) fun b => .complete (h.setPc _)

/-! ## Every instruction and every step -/

theorem SameButByteOrder.exec (h : SameButByteOrder s s') (i : Instr) :
    NextRelated SameButByteOrder (exec i s) (exec i s') := by
  cases i with
  | add rd rs rt | sub rd rs rt => exact h.regReg fun _ _ => h.narrow_eq _
  | and rd rs rt | or rd rs rt | xor rd rs rt | nor rd rs rt => exact h.regReg fun _ _ => rfl
  | sll rd rt shamt | srl rd rt shamt | sra rd rt shamt => exact h.regUnary fun _ => rfl
  | andi rt rs imm | ori rt rs imm | xori rt rs imm => exact h.regUnary fun _ => rfl
  | addi rt rs imm => exact h.regUnary fun _ => h.narrow_eq _
  | lw rt rs imm => exact h.regUnary fun _ => h.memRead_eq _
  | sw rt rs imm =>
    exact h.complete <| .bind (h.readReg_eq rs) fun base => .bind (h.readReg_eq rt) fun v => h.memWrite_advance _ v
  | beq rs rt imm | bne rs rt imm => exact h.branchIf rs rt imm _
  | jr rs => exact h.complete <| .bind (h.readReg_eq rs) fun a => .complete (h.setPc a)
  | lui rt imm => exact ⟨_, _, rfl, rfl, h.writeResult rt _⟩
  | j addr => exact ⟨_, _, rfl, by rw [Machine.exec, execJ, ← h.pc], h.setPc _⟩
  | jal addr => exact ⟨_, _, rfl, by rw [Machine.exec, execJal, ← h.pc], (h.writeReg _ _).setPc _⟩

/-- A running machine halts, takes the fault of its fetch or decode, or executes, and the other does the same. -/
theorem SameButByteOrder.step_of_running (h : SameButByteOrder s s') (hs : s.status = .running) :
    NextRelated SameButByteOrder (step s) (step s') := by
  have hs' : s'.status = .running := h.status ▸ hs
  cases he : s.atTextEnd with
  | true => exact ⟨_, _, step_of_atTextEnd hs he, step_of_atTextEnd hs' (h.atTextEnd_eq ▸ he), h.halt⟩
  | false =>
    have he' : s'.atTextEnd = false := h.atTextEnd_eq ▸ he
    cases hn : s.nextInstr with
    | error c =>
      exact ⟨_, _, step_of_nextInstr_error hs he hn, step_of_nextInstr_error hs' he' (h.nextInstr_eq ▸ hn), h.takeFault c⟩
    | ok i =>
      rw [step_of_nextInstr_ok hs he hn, step_of_nextInstr_ok hs' he' (h.nextInstr_eq ▸ hn)]
      exact h.exec i

/-- Both machines step, to machines that are again the same but for the byte order, or both have stopped alike. -/
theorem SameButByteOrder.step_cases (h : SameButByteOrder s s') :
    NextRelated SameButByteOrder (step s) (step s') ∨ ∃ f, step s = .fault f ∧ step s' = .fault f := by
  cases hs : s.status with
  | running => exact .inl (h.step_of_running hs)
  | halted => exact .inr ⟨_, step_of_halted hs, step_of_halted (h.status ▸ hs)⟩
  | faulted c => exact .inr ⟨_, step_of_faulted hs, step_of_faulted (h.status ▸ hs)⟩

end

/-- Settles O30, from the simulation of one step. -/
theorem byteOrderIsUnobservable : Obligations.ByteOrderIsUnobservable := by
  intro s s' h
  obtain ⟨t, t', ht, ht', hsame⟩ | ⟨f, hf, hf'⟩ := h.step_cases
  · rw [ht, ht']
    refine ⟨fun u hu => ?next, nofun, nofun⟩
    case next =>
      cases hu
      exact ⟨t', rfl, hsame⟩
  · rw [hf, hf']
    exact ⟨nofun, fun _ => id, nofun⟩

end Sys2Proof.Machine
end

section
/-! PROOFS. The decoder and the encoder (30_encoding.md): `decode` answers an instruction exactly for that instruction's
word (R50 to R54, R61 to R63), and that is what the decoder table of R72 says. -/

namespace Sys2Proof

/-! ## A word from its fields (R51 to R53) -/

theorem rWord_fields {w : Word} (hop : opField w = 0#6) :
    rWord (rsField w) (rtField w) (rdField w) (shamtField w) (functField w) = w := by
  rw [rWord, ← hop]
  simp (disch := rfl) only [opField, rsField, rtField, rdField, shamtField, functField,
    BitVec.extractLsb'_append_extractLsb'_eq_extractLsb', BitVec.extractLsb'_eq_self]

theorem iWord_fields (w : Word) : iWord (opField w) (rsField w) (rtField w) (immField w) = w := by
  simp (disch := rfl) only [iWord, opField, rsField, rtField, immField,
    BitVec.extractLsb'_append_extractLsb'_eq_extractLsb', BitVec.extractLsb'_eq_self]

theorem jWord_fields (w : Word) : jWord (opField w) (addrField w) = w := by
  simp (disch := rfl) only [jWord, opField, addrField, BitVec.extractLsb'_append_extractLsb'_eq_extractLsb',
    BitVec.extractLsb'_eq_self]

/-! ## Decoding and encoding are inverse (R63, R72) -/

/-- Settles O1: the decoder reads from a word the fields the encoder put there. -/
theorem decodeOfEncode : Obligations.DecodeOfEncode := by
  intro i
  cases i with
  | sll _ _ _ | srl _ _ _ | sra _ _ _ | jr _ => simp [encode, decode, decodeR]
  | add _ _ _ | sub _ _ _ | and _ _ _ | or _ _ _ | xor _ _ _ | nor _ _ _ => simp [encode, decode, decodeR]
  | beq _ _ _ | bne _ _ _ | addi _ _ _ | andi _ _ _ | ori _ _ _ | xori _ _ _ => simp [encode, decode]
  | lui _ _ | lw _ _ _ | sw _ _ _ => simp [encode, decode]
  | j _ | jal _ => simp [encode, decode]

/-- The fields of an R-type word that decodes are those of its instruction, the fixed fields (R63) among them. -/
theorem encode_of_decodeR {w : Word} {i : Instr} (hop : opField w = 0#6) (h : decodeR w = .ok i) : encode i = w := by
  have hw := rWord_fields hop
  unfold decodeR at h
  split at h
  case h_11 => cases h -- `funct` is not listed
  all_goals
    rename_i hfunct
    obtain ⟨hfixed, rfl⟩ := ifFixed_eq_ok h
    simp only [Bool.and_eq_true, beq_iff_eq] at hfixed
    simpa only [encode, hfunct, hfixed] using hw

/-- Settles O2: a word is the word of its fields, and where it decodes, those its instruction does not name are fixed. -/
theorem encodeOfDecode : Obligations.EncodeOfDecode := by
  intro w i h
  unfold decode at h
  split at h
  case h_1 hop => exact encode_of_decodeR hop h
  case h_2 hop | h_3 hop => -- `j` and `jal`
    cases h
    simpa only [encode, hop] using jWord_fields w
  case h_10 hop => -- `lui`
    obtain ⟨hrs, rfl⟩ := ifFixed_eq_ok h
    simpa only [encode, hop, beq_iff_eq.1 hrs] using iWord_fields w
  case h_13 => cases h -- `op` is not listed
  all_goals
    rename_i hop
    cases h
    simpa only [encode, hop] using iWord_fields w

theorem decode_eq_ok_iff {w : Word} {i : Instr} : decode w = .ok i ↔ encode i = w :=
  ⟨encodeOfDecode w i, fun h => h ▸ decodeOfEncode i⟩

/-! ## The decoder table (R72) -/

/-- A field whose bits a row's mask keeps whole has, in a word that matches the row, the pattern's value. -/
theorem extractLsb'_of_and_eq {w mask pattern : Word} {start len : Nat}
    (hm : mask.extractLsb' start len = BitVec.allOnes len) (h : w &&& mask = pattern) :
    w.extractLsb' start len = pattern.extractLsb' start len := by
  rw [← h, BitVec.extractLsb'_and, hm, BitVec.and_allOnes]

/-- The pattern of an R-type row is the word with the row's `funct` and zeros. -/
theorem zeroExtend_eq_rWord (funct : BitVec 6) : funct.zeroExtend 32 = rWord 0#5 0#5 0#5 0#5 funct := by
  revert funct
  decide

/-- The pattern of an I-type row is the word with the row's `op` and zeros. -/
theorem append_zeros_eq_iWord (op : BitVec 6) : op ++ 0#26 = iWord op 0#5 0#5 0#16 := by
  revert op
  decide

section
variable {w : Word}

/-- A word that matches a row with the mask of the shifts has the row's `funct` and `rs` 0. -/
theorem rWord_of_shiftMask {funct : BitVec 6} (h : w &&& 0xFFE0003F#32 = funct.zeroExtend 32) :
    rWord 0#5 (rtField w) (rdField w) (shamtField w) funct = w := by
  rw [zeroExtend_eq_rWord] at h
  have hop : opField w = 0#6 := (extractLsb'_of_and_eq rfl h).trans (opField_rWord ..)
  have hrs : rsField w = 0#5 := (extractLsb'_of_and_eq rfl h).trans (rsField_rWord ..)
  have hfunct : functField w = funct := (extractLsb'_of_and_eq rfl h).trans (functField_rWord ..)
  simpa only [hrs, hfunct] using rWord_fields hop

/-- A word that matches a row with the mask of the three-register forms has the row's `funct` and `shamt` 0. -/
theorem rWord_of_regMask {funct : BitVec 6} (h : w &&& 0xFC0007FF#32 = funct.zeroExtend 32) :
    rWord (rsField w) (rtField w) (rdField w) 0#5 funct = w := by
  rw [zeroExtend_eq_rWord] at h
  have hop : opField w = 0#6 := (extractLsb'_of_and_eq rfl h).trans (opField_rWord ..)
  have hshamt : shamtField w = 0#5 := (extractLsb'_of_and_eq rfl h).trans (shamtField_rWord ..)
  have hfunct : functField w = funct := (extractLsb'_of_and_eq rfl h).trans (functField_rWord ..)
  simpa only [hshamt, hfunct] using rWord_fields hop

/-- A word that matches the row of `jr` has the row's `funct`, and 0 in every field but `rs`. -/
theorem rWord_of_jrMask {funct : BitVec 6} (h : w &&& 0xFC1FFFFF#32 = funct.zeroExtend 32) :
    rWord (rsField w) 0#5 0#5 0#5 funct = w := by
  rw [zeroExtend_eq_rWord] at h
  have hop : opField w = 0#6 := (extractLsb'_of_and_eq rfl h).trans (opField_rWord ..)
  have hrt : rtField w = 0#5 := (extractLsb'_of_and_eq rfl h).trans (rtField_rWord ..)
  have hrd : rdField w = 0#5 := (extractLsb'_of_and_eq rfl h).trans (rdField_rWord ..)
  have hshamt : shamtField w = 0#5 := (extractLsb'_of_and_eq rfl h).trans (shamtField_rWord ..)
  have hfunct : functField w = funct := (extractLsb'_of_and_eq rfl h).trans (functField_rWord ..)
  simpa only [hrt, hrd, hshamt, hfunct] using rWord_fields hop

/-- A word that matches a row with the mask of `op` alone has the row's `op`. -/
theorem opField_of_opMask {op : BitVec 6} (h : w &&& 0xFC000000#32 = op ++ 0#26) : opField w = op := by
  rw [append_zeros_eq_iWord] at h
  exact (extractLsb'_of_and_eq rfl h).trans (opField_iWord ..)

theorem iWord_of_opMask {op : BitVec 6} (h : w &&& 0xFC000000#32 = op ++ 0#26) :
    iWord op (rsField w) (rtField w) (immField w) = w := by
  simpa only [opField_of_opMask h] using iWord_fields w

theorem jWord_of_opMask {op : BitVec 6} (h : w &&& 0xFC000000#32 = op ++ 0#26) : jWord op (addrField w) = w := by
  simpa only [opField_of_opMask h] using jWord_fields w

/-- A word that matches the row of `lui` has the row's `op` and `rs` 0. -/
theorem iWord_of_luiMask {op : BitVec 6} (h : w &&& 0xFFE00000#32 = op ++ 0#26) :
    iWord op 0#5 (rtField w) (immField w) = w := by
  rw [append_zeros_eq_iWord] at h
  have hop : opField w = op := (extractLsb'_of_and_eq rfl h).trans (opField_iWord ..)
  have hrs : rsField w = 0#5 := (extractLsb'_of_and_eq rfl h).trans (rsField_iWord ..)
  simpa only [hop, hrs] using iWord_fields w

end

/-- Every instruction's word matches the row that bears its mnemonic (R72). -/
theorem encodesRow : ∀ i : Instr, Laws.EncodesRow.Statement i
  | .sll rd rt shamt => Laws.EncodesRow.sll rd rt shamt
  | .srl rd rt shamt => Laws.EncodesRow.srl rd rt shamt
  | .sra rd rt shamt => Laws.EncodesRow.sra rd rt shamt
  | .jr rs => Laws.EncodesRow.jr rs
  | .add rd rs rt => Laws.EncodesRow.add rd rs rt
  | .sub rd rs rt => Laws.EncodesRow.sub rd rs rt
  | .and rd rs rt => Laws.EncodesRow.and rd rs rt
  | .or rd rs rt => Laws.EncodesRow.or rd rs rt
  | .xor rd rs rt => Laws.EncodesRow.xor rd rs rt
  | .nor rd rs rt => Laws.EncodesRow.nor rd rs rt
  | .j addr => Laws.EncodesRow.j addr
  | .jal addr => Laws.EncodesRow.jal addr
  | .beq rs rt imm => Laws.EncodesRow.beq rs rt imm
  | .bne rs rt imm => Laws.EncodesRow.bne rs rt imm
  | .addi rt rs imm => Laws.EncodesRow.addi rt rs imm
  | .andi rt rs imm => Laws.EncodesRow.andi rt rs imm
  | .ori rt rs imm => Laws.EncodesRow.ori rt rs imm
  | .xori rt rs imm => Laws.EncodesRow.xori rt rs imm
  | .lui rt imm => Laws.EncodesRow.lui rt imm
  | .lw rt rs imm => Laws.EncodesRow.lw rt rs imm
  | .sw rt rs imm => Laws.EncodesRow.sw rt rs imm

/-- A word that matches no row is reserved: a word that decodes is its instruction's word, which matches one. -/
theorem decode_eq_error_of_no_row {w : Word} (h : ∀ r ∈ decoderTable, w &&& r.mask ≠ r.pattern) :
    ∃ e, decode w = .error e := by
  cases hd : decode w with
  | error e => exact ⟨e, rfl⟩
  | ok i =>
    obtain ⟨r, hr, -, hmatch⟩ := encodesRow i
    exact absurd (decode_eq_ok_iff.1 hd ▸ hmatch) (h r hr)

/-- No word matches two rows: their patterns differ within the bits that both masks keep. -/
theorem decoderTable_disjoint :
    decoderTable.Pairwise (fun r q => ∀ w : Word, ¬(w &&& r.mask = r.pattern ∧ w &&& q.mask = q.pattern)) := by
  have hdiffer : decoderTable.Pairwise (fun r q => r.pattern &&& q.mask ≠ q.pattern &&& r.mask) := by decide
  refine hdiffer.imp fun {r q} hne w ⟨hr, hq⟩ => hne ?_
  rw [← hr, ← hq, BitVec.and_assoc, BitVec.and_assoc, BitVec.and_comm r.mask]

/-- Settles O3: a word that matches a row is the word of the row's instruction. -/
theorem decoderAgreesWithTable : Obligations.DecoderAgreesWithTable := by
  refine ⟨fun w => ⟨?sll, ?srl, ?sra, ?jr, ?add, ?sub, ?and, ?or, ?xor, ?nor, ?j, ?jal, ?beq, ?bne, ?addi, ?andi, ?ori,
    ?xori, ?lui, ?lw, ?sw⟩, fun w => decode_eq_error_of_no_row, decoderTable_disjoint⟩
  case sll | srl | sra => exact fun h => decode_eq_ok_iff.2 (rWord_of_shiftMask h)
  case jr => exact fun h => decode_eq_ok_iff.2 (rWord_of_jrMask h)
  case add | sub | and | or | xor | nor => exact fun h => decode_eq_ok_iff.2 (rWord_of_regMask h)
  case j | jal => exact fun h => decode_eq_ok_iff.2 (jWord_of_opMask h)
  case lui => exact fun h => decode_eq_ok_iff.2 (iWord_of_luiMask h)
  all_goals exact fun h => decode_eq_ok_iff.2 (iWord_of_opMask h)

/-! ## The words of the source -/

/-- Settles O6: the decoder runs on each of the eleven words. -/
theorem sourceWordsDecode : Obligations.SourceWordsDecode := by
  unfold Obligations.SourceWordsDecode
  decide

end Sys2Proof
end

section
/-! PROOFS. The reserved encodings (R64): the words `decode` refuses, case by case, and the fault a machine takes that
fetches one; and the all-zero word, which is none of them (R65). -/

namespace Sys2Proof

/-! ## The refusals of the decoder -/

/-- A fixed-field test refuses for one reason. -/
theorem ifFixed_eq_error_iff {fixed : Bool} {i : Instr} {e : DecodeError} :
    ifFixed fixed i = .error e ↔ fixed = false ∧ e = .fixedField := by
  cases fixed
  · rw [ifFixed_false, Except.error.injEq, eq_comm, and_iff_right rfl]
  · rw [ifFixed_true]
    exact ⟨nofun, nofun⟩

theorem decodeR_ne_unlistedOp (w : Word) : decodeR w ≠ .error .unlistedOp := by
  unfold decodeR
  split
  case h_11 => nofun
  all_goals exact fun h => nomatch (ifFixed_eq_error_iff.1 h).2

/-- The refusal of case (b) of R64. -/
theorem decodeR_eq_unlistedFunct_iff (w : Word) : decodeR w = .error .unlistedFunct ↔
    functField w ∉ [0#6, 2#6, 3#6, 8#6, 32#6, 34#6, 36#6, 37#6, 38#6, 39#6] := by
  unfold decodeR
  split
  case h_11 => simp_all -- a field value the map does not list
  all_goals
    rename_i hfield
    simp [hfield, ifFixed_eq_error_iff]

/-- The refusals of case (c) of R64 under `op` 0. -/
theorem decodeR_eq_fixedField_iff (w : Word) : decodeR w = .error .fixedField ↔
    (functField w ∈ [32#6, 34#6, 36#6, 37#6, 38#6, 39#6] ∧ shamtField w ≠ 0#5) ∨
    (functField w ∈ [0#6, 2#6, 3#6] ∧ rsField w ≠ 0#5) ∨
    (functField w = 8#6 ∧ ¬(rtField w = 0#5 ∧ rdField w = 0#5 ∧ shamtField w = 0#5)) := by
  unfold decodeR
  split
  case h_11 => simp_all -- a field value the map does not list
  all_goals
    rename_i hfield
    simp [hfield, ifFixed_eq_error_iff]

/-- The refusal of case (a) of R64. -/
theorem decode_eq_unlistedOp_iff (w : Word) : decode w = .error .unlistedOp ↔
    opField w ∉ [0#6, 2#6, 3#6, 4#6, 5#6, 8#6, 12#6, 13#6, 14#6, 15#6, 35#6, 43#6] := by
  unfold decode
  split
  case h_13 => simp_all -- a field value the map does not list
  all_goals
    rename_i hfield
    simp [hfield, ifFixed_eq_error_iff, decodeR_ne_unlistedOp]

theorem decode_eq_unlistedFunct_iff (w : Word) : decode w = .error .unlistedFunct ↔
    opField w = 0#6 ∧ decodeR w = .error .unlistedFunct := by
  unfold decode
  split
  case h_13 => simp_all -- a field value the map does not list
  all_goals
    rename_i hfield
    simp [hfield, ifFixed_eq_error_iff]

theorem decode_eq_fixedField_iff (w : Word) : decode w = .error .fixedField ↔
    (opField w = 0#6 ∧ decodeR w = .error .fixedField) ∨ (opField w = 15#6 ∧ rsField w ≠ 0#5) := by
  unfold decode
  split
  case h_13 => simp_all -- a field value the map does not list
  all_goals
    rename_i hfield
    simp [hfield, ifFixed_eq_error_iff]

/-- Settles O5: the refusals of `decode`, and under `op` 0 those of `decodeR`. -/
theorem reservedEncodings : Obligations.ReservedEncodings := by
  refine fun w => ⟨decode_eq_unlistedOp_iff w, ?_, ?_⟩
  · exact (decode_eq_unlistedFunct_iff w).trans (and_congr_right' (decodeR_eq_unlistedFunct_iff w))
  · refine (decode_eq_fixedField_iff w).trans ?_
    rw [decodeR_eq_fixedField_iff, and_or_left, and_or_left, or_assoc, or_assoc]
    rfl

namespace Machine

/-! ## The step at a reserved word and at the word 0 -/

/-- The decoder's refusal is the step's fault `ReservedInstruction` (R26, R64). -/
theorem State.nextInstr_of_decode_error {s : State} {w : Word} {e : DecodeError} (hf : s.fetch s.pc = .ok w)
    (hd : decode w = .error e) : s.nextInstr = .error (.reservedInstruction s.pc w) := by
  simp [State.nextInstr, hf, hd, bind, Except.bind, throw, throwThe, MonadExceptOf.throw]

/-- Settles O4: a word that matches no row is fetched as any other, and the decoder refuses it. -/
theorem reservedWordFaults : Obligations.ReservedWordFaults := by
  rintro s w ⟨hs, hbase, k, hk, hpc⟩ hrows
  have hfetch : s.fetch s.pc = .ok w := State.fetch_word hbase hk hpc
  obtain ⟨e, he⟩ := decode_eq_error_of_no_row hrows
  exact step_of_nextInstr_error hs (State.atTextEnd_of_fetch_ok hfetch) (State.nextInstr_of_decode_error hfetch he)

/-- Settles O18: the word 0 is `sll $0, $0, 0`, whose result register 0 discards. -/
theorem zeroWordOnlyAdvances : Obligations.ZeroWordOnlyAdvances := by
  intro s hrun
  have hstep : step s = exec (.sll 0#5 0#5 0#5) s := stepRunsDecodedInstruction s 0#32 _ hrun (decode_eq_ok_iff.2 rfl)
  exact ⟨_, hstep.trans (State.regUnary_ok s.regCell_zero rfl), s.onlyMovesPc_writeResult_zero _⟩

end Machine

end Sys2Proof
end

section
/-! PROOFS. The assembler (30_encoding.md section 5): a label it resolves is reached (R70), and a number it accepts is
the number the field holds (R69). -/

namespace Sys2Proof.Machine

open Sys2Proof.Certificates

/-! ## Numbers held in a field -/

theorem toInt_ofInt_signed {n : Int} (hlo : -32768 ≤ n) (hhi : n ≤ 32767) : (BitVec.ofInt 16 n).toInt = n :=
  BitVec.toInt_ofInt_eq_self (by decide) hlo (by omega)

theorem toNat_ofInt_of_lt {w : Nat} {n : Int} (hlo : 0 ≤ n) (hhi : n < 2 ^ w) : ((BitVec.ofInt w n).toNat : Int) = n := by
  rw [BitVec.toNat_ofInt]
  push_cast
  rw [Int.emod_eq_of_lt hlo hhi]
  omega

/-- A number in the signed 16-bit range, sign-extended from the field that holds it (R55). -/
theorem sext32_ofInt {n : Int} (hlo : -32768 ≤ n) (hhi : n ≤ 32767) : sext32 (BitVec.ofInt 16 n) = BitVec.ofInt 32 n := by
  unfold sext32 BitVec.signExtend
  rw [toInt_ofInt_signed hlo hhi]

/-! ## Label resolution (R70) -/

/-- An accepted branch label lies a signed 16-bit number of instructions from the one after the branch. -/
theorem branchField_eq_some {P L : Word} {imm : Imm} (h : branchField P L = some imm) :
    ∃ n : Int, -32768 ≤ n ∧ n ≤ 32767 ∧ (L.toNat : Int) = P.toNat + 4 + n * 4 ∧ imm = BitVec.ofInt 16 n := by
  unfold branchField at h
  dsimp only at h
  split at h
  next hd => exact ⟨_, by omega, by omega, by omega, (Option.some.inj h).symm⟩
  next => cases h

theorem jumpFieldOf_eq_some {P L : Word} {addr : JumpField} (h : jumpFieldOf P L = some addr) :
    L.extractLsb' 0 2 = 0#2 ∧ L.extractLsb' 28 4 = (nextPc P).extractLsb' 28 4 ∧ addr = L.extractLsb' 2 26 := by
  unfold jumpFieldOf at h
  split at h
  next hL =>
    obtain ⟨hlow, hregion⟩ := hL
    exact ⟨hlow, hregion, (Option.some.inj h).symm⟩
  next => cases h

/-- A branch's field counts instructions from the one after it (R58), here as numbers modulo 2^32. -/
theorem branchTarget_eq_ofInt (P : Word) {n : Int} (hlo : -32768 ≤ n) (hhi : n ≤ 32767) :
    branchTarget P (BitVec.ofInt 16 n) = BitVec.ofInt 32 (P.toNat + 4 + n * 4) := by
  rw [branchTarget, nextPc, sext32_ofInt hlo hhi, BitVec.shiftLeft_eq_mul_twoPow, BitVec.ofInt_add, BitVec.ofInt_add,
    BitVec.ofInt_mul, BitVec.ofInt_natCast, BitVec.ofNat_toNat, BitVec.setWidth_eq]
  rfl

theorem branchTarget_of_branchField {P L : Word} {imm : Imm} (h : branchField P L = some imm) :
    branchTarget P imm = L := by
  obtain ⟨n, hlo, hhi, hL, rfl⟩ := branchField_eq_some h
  rw [branchTarget_eq_ofInt P hlo hhi, ← hL, BitVec.ofInt_natCast, BitVec.ofNat_toNat, BitVec.setWidth_eq]

theorem jumpTarget_of_jumpFieldOf {P L : Word} {addr : JumpField} (h : jumpFieldOf P L = some addr) :
    jumpTarget P addr = L := by
  obtain ⟨hlow, hregion, rfl⟩ := jumpFieldOf_eq_some h
  rw [jumpTarget, ← hlow, ← hregion]
  simp (disch := rfl) only [BitVec.extractLsb'_append_extractLsb'_eq_extractLsb', BitVec.extractLsb'_eq_self]

/-- A conditional branch whose registers hold values goes to its target or to the next instruction. -/
theorem State.branchIf_ok {s : State} {rs rt : RegNum} {taken : Word → Word → Bool} {a b : Word}
    (ha : s.regCell rs = .value a) (hb : s.regCell rt = .value b) (imm : Imm) :
    s.branchIf rs rt imm taken = .next (s.setPc (if taken a b then branchTarget s.pc imm else nextPc s.pc)) := by
  unfold State.branchIf
  rw [State.readReg_eq_ok.2 ha, State.readReg_eq_ok.2 hb]
  rfl

/-- Settles O54: register 0 equals itself, so the `beq` is taken. -/
theorem resolvedLabelsAreReached : Obligations.ResolvedLabelsAreReached := by
  refine fun s L => ⟨fun imm himm => ?_, fun addr haddr => ⟨_, rfl, jumpTarget_of_jumpFieldOf haddr⟩⟩
  exact ⟨_, State.branchIf_ok s.regCell_zero s.regCell_zero imm, branchTarget_of_branchField himm⟩

/-! ## Immediates and shift amounts (R69) -/

/-- A mnemonic takes the numbers of a range when its statements are accepted by the test of that range, and the field
then holds the number. -/
theorem takesNumber_of_accept {w : Nat} {mnemonic : String} {operands : Int → List Operand} {lo hi : Int}
    {mk : BitVec w → Instr} {value : BitVec w → Int} (form : Form)
    (hform : mnemonicForms.lookup mnemonic.toList = some form)
    (haccept : ∀ labels P n, assembleStmt labels P (form, operands n) =
      accept (decide (lo ≤ n ∧ n ≤ hi)) .immediateRange (mk (BitVec.ofInt w n)))
    (hvalue : ∀ n, lo ≤ n → n ≤ hi → value (BitVec.ofInt w n) = n) :
    TakesNumber mnemonic operands lo hi mk value := by
  refine ⟨form, hform, fun labels P n => ⟨fun ⟨hlo, hhi⟩ => ⟨_, ?_, hvalue n hlo hhi⟩, fun hn => ?_⟩⟩
  · rw [haccept, decide_eq_true ⟨hlo, hhi⟩]
    rfl
  · rw [haccept, decide_eq_false hn]
    rfl

/-- Settles O55: the range of each form is the test its statement passes, and in it the field holds the number. -/
theorem immediateRefusedNotTruncated : Obligations.ImmediateRefusedNotTruncated := by
  refine ⟨fun rt rs => ⟨?addi, ?lw, ?sw, ?andi, ?ori, ?xori, ?lui⟩, fun rd rt => ⟨?sll, ?srl, ?sra⟩⟩
  case addi | lw | sw => exact takesNumber_of_accept _ rfl (fun _ _ _ => rfl) fun _ => toInt_ofInt_signed
  case andi | ori | xori | lui | sll | srl | sra =>
    exact takesNumber_of_accept _ rfl (fun _ _ _ => rfl) fun _ hlo hhi => toNat_ofInt_of_lt hlo (by omega)

end Sys2Proof.Machine
end

section
/-! PROOFS. Arithmetic (R80 to R83): what a form of one or two sources answers when a source is unwritten and when all
hold values, the exact sum or difference narrowed to 32 bits, and signed overflow told by the bits. -/

namespace Sys2Proof.Machine

open Sys2Proof.Certificates

/-! ## What the forms of one and two sources answer (R14, R15) -/

section
variable {s : State} {rd rs rt : RegNum}

theorem State.readReg_unwritten {r : RegNum} (h : s.regCell r = .unwritten) :
    s.readReg r = .error (.unwrittenRegisterRead s.pc r) :=
  State.readReg_eq_error.2 ⟨h, rfl⟩

theorem State.regUnary_unwritten (f : Word → Checked Word) (hs : s.regCell rs = .unwritten) :
    s.regUnary rd rs f = .next (s.takeFault (.unwrittenRegisterRead s.pc rs)) := by
  rw [State.regUnary, State.readReg_unwritten hs]
  rfl

/-- A one-source form whose register holds a value ends as its function does. -/
theorem State.regUnary_eq {a : Word} (f : Word → Checked Word) (ha : s.regCell rs = .value a) :
    s.regUnary rd rs f = s.complete (f a >>= fun v => pure (s.writeResult rd v)) := by
  rw [State.regUnary, State.readReg_eq_ok.2 ha]
  rfl

theorem State.regReg_unwritten_first (f : Word → Word → Checked Word) (hs : s.regCell rs = .unwritten) :
    s.regReg rd rs rt f = .next (s.takeFault (.unwrittenRegisterRead s.pc rs)) := by
  rw [State.regReg, State.readReg_unwritten hs]
  rfl

theorem State.regReg_unwritten_second {a : Word} (f : Word → Word → Checked Word) (ha : s.regCell rs = .value a)
    (ht : s.regCell rt = .unwritten) :
    s.regReg rd rs rt f = .next (s.takeFault (.unwrittenRegisterRead s.pc rt)) := by
  rw [State.regReg, State.readReg_eq_ok.2 ha, State.readReg_unwritten ht]
  rfl

/-- A two-source form whose registers hold values ends as its function does. -/
theorem State.regReg_eq {a b : Word} (f : Word → Word → Checked Word) (ha : s.regCell rs = .value a)
    (hb : s.regCell rt = .value b) :
    s.regReg rd rs rt f = s.complete (f a b >>= fun v => pure (s.writeResult rd v)) := by
  rw [State.regReg, State.readReg_eq_ok.2 ha, State.readReg_eq_ok.2 hb]
  rfl

/-- A two-source form reads `rs` and then `rt`, and faults on the first that holds no value. -/
theorem faultsOnUnwrittenSources_of_regReg {i : Instr} {f : Word → Word → Checked Word}
    (hi : exec i s = s.regReg rd rs rt f) : FaultsOnUnwrittenSources i s rs rt :=
  ⟨fun hs => hi.trans (State.regReg_unwritten_first f hs),
    fun _ ha ht => hi.trans (State.regReg_unwritten_second f ha ht)⟩

end

/-! ## The arithmetic law (R80) -/

theorem signedOverflow_iff (S : Int) : signedOverflow S = true ↔ S < -2147483648 ∨ 2147483647 < S :=
  decide_eq_true_iff

/-- An instruction that ends by narrowing the exact result `S` into register `r` has the result R80 gives it. -/
theorem arithmeticResult_of_narrow {i : Instr} {s : State} {r : RegNum} {S : Int}
    (hi : exec i s = s.complete (s.narrow S >>= fun v => pure (s.writeResult r v))) : ArithmeticResult i s r S := by
  obtain ⟨hout, hpolicy, hS⟩ | ⟨hfits, hS⟩ := s.narrow_cases S
  · rw [hS] at hi
    exact ⟨fun _ => hi, fun hn => absurd ⟨(signedOverflow_iff S).1 hout, hpolicy⟩ hn⟩
  · rw [hS] at hi
    rw [signedOverflow_iff] at hfits
    exact ⟨fun h => absurd h hfits, fun _ => ⟨_, hi, s.writesReg_writeResult r (wrap32 S)⟩⟩

/-- Settles O37: `add` narrows the exact sum. -/
theorem addRule : Obligations.AddRule := by
  refine fun rd rs rt => ⟨rfl, fun s => ⟨?faults, fun a b ha hb => ?result⟩⟩
  case faults => exact faultsOnUnwrittenSources_of_regReg rfl
  case result => exact arithmeticResult_of_narrow (State.regReg_eq _ ha hb)

/-- Settles O38: `sub` narrows the exact difference. -/
theorem subRule : Obligations.SubRule := by
  refine fun rd rs rt => ⟨rfl, fun s => ⟨?faults, fun a b ha hb => ?result⟩⟩
  case faults => exact faultsOnUnwrittenSources_of_regReg rfl
  case result => exact arithmeticResult_of_narrow (State.regReg_eq _ ha hb)

/-- Sign extension keeps the two's complement number (R55). -/
theorem toInt_sext32 (imm : Imm) : (sext32 imm).toInt = imm.toInt :=
  BitVec.toInt_signExtend_of_le (by decide)

/-- Settles O39: `addi` narrows the exact sum with the sign-extended immediate, which is the immediate's own number. -/
theorem addiRule : Obligations.AddiRule := by
  refine fun rt rs imm => ⟨rfl, fun s => ⟨State.regUnary_unwritten _, fun a ha => ?_⟩⟩
  rw [← toInt_sext32]
  exact arithmeticResult_of_narrow (State.regUnary_eq _ ha)

/-! ## Signed overflow by the bits (R80) -/

/-- The wrap-around sum is the exact sum modulo 2^32. -/
theorem ofInt_toInt_add (a b : Word) : BitVec.ofInt 32 (a.toInt + b.toInt) = a + b := by
  rw [BitVec.ofInt_add, BitVec.ofInt_toInt, BitVec.ofInt_toInt]

theorem ofInt_toInt_sub (a b : Word) : BitVec.ofInt 32 (a.toInt - b.toInt) = a - b := by
  rw [Int.sub_eq_add_neg, BitVec.ofInt_add, BitVec.ofInt_neg, BitVec.ofInt_toInt, BitVec.ofInt_toInt,
    BitVec.sub_eq_add_neg]

/-- An addition leaves the signed range when its operands agree in bit 31 and the sum does not. -/
theorem add_outOfRange_iff (a b : Word) : (a.toInt + b.toInt < -2147483648 ∨ 2147483647 < a.toInt + b.toInt) ↔
    a.msb = b.msb ∧ (a + b).msb ≠ a.msb := by
  have hrange : (a.toInt + b.toInt < -2147483648 ∨ 2147483647 < a.toInt + b.toInt) ↔ a.saddOverflow b = true := by
    simp only [BitVec.saddOverflow, Bool.or_eq_true, decide_eq_true_eq]
    omega
  rw [hrange, BitVec.saddOverflow_eq]
  simp

/-- A subtraction leaves the signed range when its operands differ in bit 31 and the difference differs from the
first. -/
theorem sub_outOfRange_iff (a b : Word) : (a.toInt - b.toInt < -2147483648 ∨ 2147483647 < a.toInt - b.toInt) ↔
    a.msb ≠ b.msb ∧ (a - b).msb ≠ a.msb := by
  have hrange : (a.toInt - b.toInt < -2147483648 ∨ 2147483647 < a.toInt - b.toInt) ↔ a.ssubOverflow b = true := by
    simp only [BitVec.ssubOverflow, Bool.or_eq_true, decide_eq_true_eq]
    omega
  rw [hrange, BitVec.ssubOverflow_eq]
  cases a.msb <;> cases b.msb <;> simp

/-- The law of R80 with any test `overflows` for the range, and the result `v` that is `S` modulo 2^32. -/
theorem arithmeticResult_by_test {i : Instr} {s : State} {r : RegNum} {S : Int} {v : Word} {overflows : Prop}
    [Decidable (s.launch.overflow = .fault ∧ overflows)] (h : ArithmeticResult i s r S)
    (htest : (S < -2147483648 ∨ 2147483647 < S) ↔ overflows) (hv : BitVec.ofInt 32 S = v) :
    if s.launch.overflow = .fault ∧ overflows then Raises i s (.integerOverflow s.pc)
    else ∃ t, exec i s = .next t ∧ s.WritesReg t r v (s.pc + 4#32) := by
  obtain ⟨hraises, hwrites⟩ := h
  rw [htest, and_comm] at hraises hwrites
  subst hv
  split
  next hout => exact hraises hout
  next hfits => exact hwrites hfits

/-- Settles O40, from the rules of `add` and `sub`: each bit test is the range test of its exact result. -/
theorem overflowByBitTests : Obligations.OverflowByBitTests := by
  intro s rd rs rt a b ha hb
  have hadd : ArithmeticResult (.add rd rs rt) s rd (a.toInt + b.toInt) := ((addRule rd rs rt).2 s).2 a b ha hb
  have hsub : ArithmeticResult (.sub rd rs rt) s rd (a.toInt - b.toInt) := ((subRule rd rs rt).2 s).2 a b ha hb
  exact ⟨arithmeticResult_by_test hadd (add_outOfRange_iff a b) (ofInt_toInt_add a b),
    arithmeticResult_by_test hsub (sub_outOfRange_iff a b) (ofInt_toInt_sub a b)⟩

end Sys2Proof.Machine
end

section
/-! PROOFS. Loads and stores (R91, R92): the two rules, assembled from what `MemRead` and `MemWrite` answer at the
effective address. -/

namespace Sys2Proof.Machine

open Sys2Proof.Certificates

/-- Settles O41: `lw` has one source, and then ends as `MemRead` does at the effective address. -/
theorem loadWordRule : Obligations.LoadWordRule := by
  refine fun rt rs imm => ⟨rfl, fun s => ⟨State.regUnary_unwritten _, ?_⟩⟩
  rintro base ea hbase rfl
  refine ⟨?misaligned, ?notAdmitted, ?unwritten, ?word, Launch.inData_of_inText⟩
  case misaligned => exact fun hal => exec_lw_raises hbase (State.memRead_misaligned hal)
  case notAdmitted => exact fun hal hdata => exec_lw_raises hbase (State.memRead_notAdmitted hal hdata)
  case unwritten => exact fun hal hdata hnone => exec_lw_raises hbase (State.memRead_unwritten hal hdata hnone)
  case word =>
    intro v hal hdata hsome
    exact ⟨_, exec_lw_ok hbase (State.memRead_word hal hdata hsome), s.writesReg_writeResult rt v⟩

/-- `sw` reads its base `rs` and then `rt`, and faults on the first that holds no value (R15, R92). -/
theorem faultsOnUnwrittenSources_sw (s : State) (rt rs : RegNum) (imm : Imm) :
    FaultsOnUnwrittenSources (.sw rt rs imm) s rs rt := by
  refine ⟨fun hs => ?base, fun a ha ht => ?stored⟩
  case base =>
    rw [Raises, exec, execSw, State.readReg_unwritten hs]
    rfl
  case stored =>
    rw [Raises, exec, execSw, State.readReg_eq_ok.2 ha, State.readReg_unwritten ht]
    rfl

/-- Settles O42: `sw` has two sources, and then ends as `MemWrite` does at the effective address. -/
theorem storeWordRule : Obligations.StoreWordRule := by
  refine fun rt rs imm => ⟨rfl, fun s => ⟨faultsOnUnwrittenSources_sw s rt rs imm, ?_⟩⟩
  rintro base v ea hbase hv rfl
  refine ⟨?misaligned, ?notAdmitted, ?stores, Launch.inData_of_inText⟩
  case misaligned => exact fun hal => exec_sw_raises hbase hv (State.memWrite_misaligned hal v)
  case notAdmitted => exact fun hal hdata => exec_sw_raises hbase hv (State.memWrite_notAdmitted hal hdata v)
  case stores => exact fun hal hdata => exec_sw_stores hbase hv hal hdata

end Sys2Proof.Machine
end

section
/-! PROOFS. Logic (R100 to R107): the four operations on words act bit by bit, each by its column of the truth table; a
form of two registers, or of a register and a zero-extended immediate, that computes such an operation has the rule the
spec gives it. -/

namespace Sys2Proof.Machine

open Sys2Proof.Certificates

/-! ## The bitwise law (R100) -/

/-- Each bit of the result depends on the operands' bits at its own position alone, by the truth table `bit` (R100). -/
def ActsBitwise (op : Word → Word → Word) (bit : Bool → Bool → Bool) : Prop :=
  ∀ a b k, k < 32 → (op a b).getLsbD k = bit (a.getLsbD k) (b.getLsbD k)

theorem actsBitwise_and : ActsBitwise (fun a b => a &&& b) (fun a b => a && b) :=
  fun _ _ _ _ => BitVec.getLsbD_and

theorem actsBitwise_or : ActsBitwise (fun a b => a ||| b) (fun a b => a || b) :=
  fun _ _ _ _ => BitVec.getLsbD_or

theorem actsBitwise_xor : ActsBitwise (fun a b => a ^^^ b) (fun a b => a != b) :=
  fun _ _ _ _ => BitVec.getLsbD_xor

/-- The complement turns the zeros above bit 31 to ones, so here it matters that the position is one of the word's. -/
theorem actsBitwise_nor : ActsBitwise (fun a b => ~~~(a ||| b)) (fun a b => !(a || b)) := by
  intro a b k hk
  rw [BitVec.getLsbD_not, BitVec.getLsbD_or, decide_eq_true hk, Bool.true_and]

/-- The zero-extended immediate has the immediate's bits below bit 16 and zeros from there up (R56). -/
theorem getLsbD_zext32 (imm : Imm) {k : Nat} (hk : k < 32) :
    (zext32 imm).getLsbD k = if k < 16 then imm.getLsbD k else false := by
  have hbit : (zext32 imm).getLsbD k = imm.getLsbD k := by
    rw [zext32, BitVec.getLsbD_setWidth, decide_eq_true hk, Bool.true_and]
  rw [hbit]
  split
  next => rfl
  next hhigh => exact BitVec.getLsbD_of_ge imm k (by omega)

/-! ## The two forms -/

/-- A form of two registers that computes a bitwise operation has the rule of its truth table. -/
theorem registerLogicalRule_of_actsBitwise {mk : RegNum → RegNum → RegNum → Instr} {funct : BitVec 6}
    {op : Word → Word → Word} {bit : Bool → Bool → Bool} (hop : ActsBitwise op bit)
    (hword : ∀ rd rs rt, encode (mk rd rs rt) = rWord rs rt rd 0#5 funct)
    (hexec : ∀ rd rs rt s, exec (mk rd rs rt) s = s.regReg rd rs rt fun a b => .ok (op a b)) :
    RegisterLogicalRule mk funct bit := by
  refine fun rd rs rt => ⟨hword rd rs rt, fun s => ⟨?faults, fun a b ha hb => ?result⟩⟩
  case faults => exact faultsOnUnwrittenSources_of_regReg (hexec rd rs rt s)
  case result =>
    have hnext := (hexec rd rs rt s).trans (State.regReg_ok ha hb rfl)
    exact ⟨_, op a b, hnext, s.writesReg_writeResult rd _, hop a b⟩

/-- A form of a register and a zero-extended immediate that computes a bitwise operation has the rule of its truth
table. -/
theorem immediateLogicalRule_of_actsBitwise {mk : RegNum → RegNum → Imm → Instr} {opcode : BitVec 6}
    {op : Word → Word → Word} {bit : Bool → Bool → Bool} (hop : ActsBitwise op bit)
    (hword : ∀ rt rs imm, encode (mk rt rs imm) = iWord opcode rs rt imm)
    (hexec : ∀ rt rs imm s, exec (mk rt rs imm) s = s.regUnary rt rs fun a => .ok (op a (zext32 imm))) :
    ImmediateLogicalRule mk opcode bit := by
  refine fun rt rs imm => ⟨hword rt rs imm, fun s => ⟨fun hs => ?fault, fun a ha => ?result⟩⟩
  case fault => exact (hexec rt rs imm s).trans (State.regUnary_unwritten _ hs)
  case result =>
    have hnext := (hexec rt rs imm s).trans (State.regUnary_ok ha rfl)
    refine ⟨_, op a (zext32 imm), hnext, s.writesReg_writeResult rt _, fun k hk => ?_⟩
    rw [hop a (zext32 imm) k hk, getLsbD_zext32 imm hk]

/-- Settles O43: `and`, `or`, `xor` and `nor` compute the four bitwise operations. -/
theorem registerLogicalRules : Obligations.RegisterLogicalRules := by
  refine ⟨?and, ?or, ?xor, ?nor⟩
  case and => exact registerLogicalRule_of_actsBitwise actsBitwise_and (fun _ _ _ => rfl) fun _ _ _ _ => rfl
  case or => exact registerLogicalRule_of_actsBitwise actsBitwise_or (fun _ _ _ => rfl) fun _ _ _ _ => rfl
  case xor => exact registerLogicalRule_of_actsBitwise actsBitwise_xor (fun _ _ _ => rfl) fun _ _ _ _ => rfl
  case nor => exact registerLogicalRule_of_actsBitwise actsBitwise_nor (fun _ _ _ => rfl) fun _ _ _ _ => rfl

/-- Settles O44: `andi`, `ori` and `xori` compute three of them with the zero-extended immediate. -/
theorem immediateLogicalRules : Obligations.ImmediateLogicalRules := by
  refine ⟨?andi, ?ori, ?xori⟩
  case andi => exact immediateLogicalRule_of_actsBitwise actsBitwise_and (fun _ _ _ => rfl) fun _ _ _ _ => rfl
  case ori => exact immediateLogicalRule_of_actsBitwise actsBitwise_or (fun _ _ _ => rfl) fun _ _ _ _ => rfl
  case xori => exact immediateLogicalRule_of_actsBitwise actsBitwise_xor (fun _ _ _ => rfl) fun _ _ _ _ => rfl

end Sys2Proof.Machine
end

section
/-! PROOFS. Shifts (R110 to R113): each shift of a word is the arithmetic of its pseudocode's comment, and an instruction
that shifts `rt` by its `shamt` has the rule of that arithmetic. -/

namespace Sys2Proof.Machine

open Sys2Proof.Certificates

/-! ## Each shift as arithmetic (R110) -/

/-- Bits shifted out at the top are the multiples of `2^32` that the reduction drops (R111). -/
theorem shiftLeft_eq_ofNat_mul (a : Word) (n : Nat) : a <<< n = BitVec.ofNat 32 (a.toNat * 2 ^ n) := by
  apply BitVec.eq_of_toNat_eq
  rw [BitVec.toNat_shiftLeft, Nat.shiftLeft_eq, BitVec.toNat_ofNat]

/-- Zeros enter at the top: the quotient of the unsigned value, rounded down (R112). -/
theorem ushiftRight_eq_ofNat_div (a : Word) (n : Nat) : a >>> n = BitVec.ofNat 32 (a.toNat / 2 ^ n) := by
  rw [← Nat.shiftRight_eq_div_pow, ← BitVec.toNat_ushiftRight, BitVec.ofNat_toNat, BitVec.setWidth_eq]

/-- Copies of the sign enter at the top: the quotient of the signed value, rounded down and not toward zero (R113). -/
theorem sshiftRight_eq_ofInt_div (a : Word) (n : Nat) : a.sshiftRight n = BitVec.ofInt 32 (a.toInt / 2 ^ n) := by
  have hquotient : (a.sshiftRight n).toInt = a.toInt / 2 ^ n := by
    rw [BitVec.toInt_sshiftRight, Int.shiftRight_eq_div_pow, Nat.cast_pow, Nat.cast_ofNat]
  rw [← hquotient, BitVec.ofInt_toInt]

/-! ## The form -/

/-- A form of `rt` and a shift amount that computes a shift has the rule of any arithmetic the shift agrees with. -/
theorem shiftRule_of_eq {mk : RegNum → RegNum → Shamt → Instr} {funct : BitVec 6} {shift result : Word → Nat → Word}
    (hshift : ∀ a n, shift a n = result a n)
    (hword : ∀ rd rt shamt, encode (mk rd rt shamt) = rWord 0#5 rt rd shamt funct)
    (hexec : ∀ rd rt shamt s, exec (mk rd rt shamt) s = s.regUnary rd rt fun a => .ok (shift a shamt.toNat)) :
    ShiftRule mk funct result := by
  refine fun rd rt shamt => ⟨hword rd rt shamt, fun s => ⟨fun ht => ?fault, fun a ha => ?result⟩⟩
  case fault => exact (hexec rd rt shamt s).trans (State.regUnary_unwritten _ ht)
  case result =>
    have hnext := (hexec rd rt shamt s).trans (State.regUnary_ok ha (congrArg _ (hshift a shamt.toNat)))
    exact ⟨_, hnext, s.writesReg_writeResult rd _⟩

/-- Settles O45: `sll`, `srl` and `sra` compute the three shifts. -/
theorem shiftRules : Obligations.ShiftRules := by
  refine ⟨?sll, ?srl, ?sra⟩
  case sll => exact shiftRule_of_eq shiftLeft_eq_ofNat_mul (fun _ _ _ => rfl) fun _ _ _ _ => rfl
  case srl => exact shiftRule_of_eq ushiftRight_eq_ofNat_div (fun _ _ _ => rfl) fun _ _ _ _ => rfl
  case sra => exact shiftRule_of_eq sshiftRight_eq_ofInt_div (fun _ _ _ => rfl) fun _ _ _ _ => rfl

end Sys2Proof.Machine
end

section
/-! PROOFS. Constants (R120 to R122): `lui` by itself; `addi` from register 0, whose sum is a 16-bit number and never
overflows; and `lui` then `ori` on one register, two writes of which the second wins. -/

namespace Sys2Proof.Machine

open Sys2Proof.Certificates

/-- Settles O46: `lui` reads no register, so it writes its result in every state. -/
theorem loadUpperRule : Obligations.LoadUpperRule :=
  fun rt imm => ⟨rfl, fun s => ⟨_, rfl, s.writesReg_writeResult rt (upperImm imm)⟩⟩

/-- Settles O47, from the rule of `addi`: register 0 adds nothing, and a 16-bit number lies in the signed 32-bit range,
so neither policy sees an overflow. -/
theorem addiLoadsConstant : Obligations.AddiLoadsConstant := by
  intro s rt imm
  have hsum : ArithmeticResult (.addi rt 0#5 imm) s rt ((0#32).toInt + imm.toInt) :=
    ((addiRule rt 0#5 imm).2 s).2 0#32 s.regCell_zero
  rw [BitVec.toInt_zero, Int.zero_add] at hsum
  obtain ⟨-, hwrites⟩ := hsum
  have hlo : -32768 ≤ imm.toInt := BitVec.le_toInt imm
  have hhi : imm.toInt < 32768 := BitVec.toInt_lt
  exact hwrites fun ⟨hout, _⟩ => by omega

/-! ## Two writes of one register -/

section
variable {s t u : State} {r : RegNum} {v w next next' : Word}

/-- A register written reads back what was written, and register 0 reads 0 (R12, R13). -/
theorem State.WritesReg.regCell_self (h : s.WritesReg t r v next) :
    t.regCell r = .value (if r = 0#5 then 0#32 else v) := by
  split
  next hr => rw [hr, State.regCell_zero]
  next hr => rw [h.regs, if_pos ⟨rfl, hr⟩]

/-- Register 0 discards the write, so there it does not matter which value is written (R13). -/
theorem State.WritesReg.of_value_eq (h : s.WritesReg t r v next) (hv : r ≠ 0#5 → v = w) : s.WritesReg t r w next where
  regs q := by
    rw [h.regs]
    refine if_ctx_congr Iff.rfl (fun hq => ?_) fun _ => rfl
    rw [hv hq.2]
  pc := h.pc
  mem := h.mem
  status := h.status
  launch := h.launch

/-- Of two writes of one register the second wins. -/
theorem State.WritesReg.trans (h : s.WritesReg t r v next) (h' : t.WritesReg u r w next') :
    s.WritesReg u r w next' where
  regs q := by
    rw [h'.regs, h.regs]
    split <;> rfl
  pc := h'.pc
  mem a := (h'.mem a).trans (h.mem a)
  status := h'.status.trans h.status
  launch := h'.launch.trans h.launch

end

/-! ## The halves of a word (R122) -/

/-- A word is its upper half above sixteen zeros or its zero-extended lower half. -/
theorem upperImm_or_zext32 (c : Word) : upperImm (c.extractLsb' 16 16) ||| zext32 (c.extractLsb' 0 16) = c := by
  have hlow : zext32 (c.extractLsb' 0 16) = 0#16 ++ c.extractLsb' 0 16 := BitVec.setWidth_eq_append (by decide)
  calc upperImm (c.extractLsb' 16 16) ||| zext32 (c.extractLsb' 0 16)
      = c.extractLsb' 16 16 ++ c.extractLsb' 0 16 := by
        rw [hlow, upperImm, BitVec.or_append, BitVec.or_zero, BitVec.zero_or]
    _ = c := by
        simp (disch := rfl) only [BitVec.extractLsb'_append_extractLsb'_eq_extractLsb', BitVec.extractLsb'_eq_self]

/-- What `ori` answers when its source holds a value (R106). -/
theorem exec_ori_writesReg {s : State} {rs : RegNum} {a : Word} (ha : s.regCell rs = .value a) (rt : RegNum)
    (imm : Imm) : ∃ t, exec (.ori rt rs imm) s = .next t ∧ s.WritesReg t rt (a ||| zext32 imm) (s.pc + 4#32) :=
  ⟨_, State.regUnary_ok ha rfl, s.writesReg_writeResult rt _⟩

/-- Settles O48: `ori` reads back the upper half that `lui` wrote and fills in the lower; on register 0 both writes are
discarded. -/
theorem luiOriLoadsConstant : Obligations.LuiOriLoadsConstant := by
  intro s rt c
  obtain ⟨t, hlui, hupper⟩ := (loadUpperRule rt (c.extractLsb' 16 16)).2 s
  obtain ⟨u, hori, hlower⟩ := exec_ori_writesReg hupper.regCell_self rt (c.extractLsb' 0 16)
  rw [hupper.pc, BitVec.add_assoc] at hlower
  refine ⟨t, u, hlui, hori, (hupper.trans hlower).of_value_eq fun hrt => ?_⟩
  rw [if_neg hrt]
  exact upperImm_or_zext32 c

end Sys2Proof.Machine
end

section
/-! PROOFS. Control transfer (R125 to R131): a branch's outcomes by the test of its registers, the jumps and their
targets, the step that follows a transfer, and the return from a call. -/

namespace Sys2Proof.Machine

open Sys2Proof.Certificates

/-! ## A transfer changes the `pc`, and the step after it reads the same program -/

section
variable {s t u : State} {r : RegNum} {v next next' : Word}

theorem State.onlyMovesPc_setPc (s : State) (next : Word) : s.OnlyMovesPc (s.setPc next) next where
  regs _ := rfl
  pc := rfl
  mem _ := rfl
  status := rfl
  launch := rfl

/-- Writing a register and transferring control, as `jal` does. -/
theorem State.writesReg_setPc (s : State) (r : RegNum) (v next : Word) :
    s.WritesReg ((s.writeReg r v).setPc next) r v next where
  regs q := s.regCell_writeReg r q v
  pc := rfl
  mem a := by rw [State.setPc_mem, State.writeReg_mem]
  status := s.writeReg_status r v
  launch := s.writeReg_launch r v

/-- A transfer after a register write leaves the write and replaces the `pc`. -/
theorem State.WritesReg.trans_onlyMovesPc (h : s.WritesReg t r v next) (h' : t.OnlyMovesPc u next') :
    s.WritesReg u r v next' where
  regs q := (h'.regs q).trans (h.regs q)
  pc := h'.pc
  mem a := (h'.mem a).trans (h.mem a)
  status := h'.status.trans h.status
  launch := h'.launch.trans h.launch

/-- A running machine moved to the address of a program word is about to run that word (R26, R125). -/
theorem State.OnlyMovesPc.aboutToRun {w : Word} (h : s.OnlyMovesPc t next) (hs : s.status = .running)
    (hbase : s.launch.textBase.toNat % 4 = 0) (hw : WordAt s next w) : AboutToRun t w := by
  rw [AboutToRun, WordAt, h.status, h.launch, h.pc]
  exact ⟨hs, hbase, hw⟩

end

/-! ## Conditional branches (R126, R127) -/

/-- The branch target as R58 writes it: the field counts instructions of four bytes. -/
theorem branchTarget_eq_add_mul (pc : Word) (imm : Imm) :
    branchTarget pc imm = pc + 4#32 + imm.signExtend 32 * 4#32 := by
  rw [branchTarget, nextPc, sext32, BitVec.shiftLeft_eq_mul_twoPow]
  rfl

/-- A conditional branch reads `rs` and then `rt`, and faults on the first that holds no value (R14, R15). -/
theorem faultsOnUnwrittenSources_of_branchIf {i : Instr} {s : State} {rs rt : RegNum} {imm : Imm}
    {test : Word → Word → Bool} (hi : exec i s = s.branchIf rs rt imm test) : FaultsOnUnwrittenSources i s rs rt := by
  refine ⟨fun hs => ?first, fun a ha ht => ?second⟩
  case first =>
    rw [Raises, hi, State.branchIf, State.readReg_unwritten hs]
    rfl
  case second =>
    rw [Raises, hi, State.branchIf, State.readReg_eq_ok.2 ha, State.readReg_unwritten ht]
    rfl

/-- An instruction that is the conditional branch of a test satisfies the rule of the relation the test decides. -/
theorem branchRule_of_branchIf {mk : RegNum → RegNum → Imm → Instr} {op : BitVec 6} {test : Word → Word → Bool}
    {taken : Word → Word → Prop} (hencode : ∀ rs rt imm, encode (mk rs rt imm) = op ++ rs ++ rt ++ imm)
    (hexec : ∀ rs rt imm s, exec (mk rs rt imm) s = s.branchIf rs rt imm test)
    (htest : ∀ a b, test a b = true ↔ taken a b) : BranchRule mk op taken := by
  refine fun rs rt imm => ⟨hencode rs rt imm, fun s => ⟨faultsOnUnwrittenSources_of_branchIf (hexec rs rt imm s), ?_⟩⟩
  intro a b ha hb
  refine ⟨_, (hexec rs rt imm s).trans (State.branchIf_ok ha hb imm), fun htaken => ?_, fun hnot => ?_⟩
  · rw [if_pos ((htest a b).2 htaken), branchTarget_eq_add_mul]
    exact s.onlyMovesPc_setPc _
  · rw [if_neg (mt (htest a b).1 hnot)]
    exact s.onlyMovesPc_setPc _

/-- Settles O49: `beq` tests equality of the two words and `bne` its negation. -/
theorem branchRules : Obligations.BranchRules :=
  ⟨branchRule_of_branchIf (fun _ _ _ => rfl) (fun _ _ _ _ => rfl) fun _ _ => beq_iff_eq,
    branchRule_of_branchIf (fun _ _ _ => rfl) (fun _ _ _ _ => rfl) fun _ _ => bne_iff_ne⟩

/-- Settles O17: the `beq` moves only the `pc`, so the next step fetches the word at the target from the same program. -/
theorem branchHasNoDelaySlot : Obligations.BranchHasNoDelaySlot := by
  intro s w w' rs rt imm a i hrun hbeq ha hb hw' hi
  obtain ⟨hbeqRule, -⟩ := branchRules
  obtain ⟨-, hrule⟩ := hbeqRule rs rt imm
  obtain ⟨-, houtcome⟩ := hrule s
  obtain ⟨t, hexec, htaken, -⟩ := houtcome a a ha hb
  have hmoves := htaken rfl
  have hstep : step s = .next t := (stepRunsDecodedInstruction s w _ hrun hbeq).trans hexec
  obtain ⟨hs, hbase, -⟩ := hrun
  exact ⟨t, hstep, hmoves, stepRunsDecodedInstruction t w' i (hmoves.aboutToRun hs hbase hw') hi⟩

/-! ## Jumps (R128 to R130) -/

/-- Settles O50: `j` reads no register, so it moves the `pc` in every state. -/
theorem jumpRule : Obligations.JumpRule :=
  fun addr => ⟨rfl, fun s => ⟨_, rfl, s.onlyMovesPc_setPc (jumpTarget s.pc addr)⟩⟩

/-- Settles O52: `jal` reads no register, so it links and moves the `pc` in every state. -/
theorem jumpAndLinkRule : Obligations.JumpAndLinkRule :=
  fun addr => ⟨rfl, fun s => ⟨_, rfl, s.writesReg_setPc 31#5 (nextPc s.pc) (jumpTarget s.pc addr)⟩⟩

theorem exec_jr_raises {s : State} {rs : RegNum} (hs : s.regCell rs = .unwritten) :
    Raises (.jr rs) s (.unwrittenRegisterRead s.pc rs) := by
  rw [Raises, exec, execJr, State.readReg_unwritten hs]
  rfl

theorem exec_jr_ok {s : State} {rs : RegNum} {a : Word} (ha : s.regCell rs = .value a) :
    exec (.jr rs) s = .next (s.setPc a) := by
  rw [exec, execJr, State.readReg_eq_ok.2 ha]
  rfl

/-- Settles O51: after the jump the `pc` is the register's value, so the next step is the one `BadPcFaults` and
`HaltsExactlyAtTextEnd` give there. `TEXT_END` is aligned, so a misaligned value is no end of the run. -/
theorem jumpRegisterRule : Obligations.JumpRegisterRule := by
  refine fun rs => ⟨rfl, fun s => ⟨exec_jr_raises, fun a ha => ?_⟩⟩
  refine ⟨_, exec_jr_ok ha, s.onlyMovesPc_setPc a, fun hs hbase => ?_⟩
  have hbad := badPcFaults (s.setPc a) hs
  obtain ⟨hhalts, -⟩ := haltsExactlyAtTextEnd (s.setPc a)
  simp only [State.setPc_pc, State.setPc_launch] at hbad hhalts
  split_ifs with hmis hend
  · obtain ⟨hmisaligned, -⟩ := hbad (by omega)
    exact hmisaligned hmis
  · exact hhalts hs hend
  · intro hout
    obtain ⟨-, hnotAdmitted⟩ := hbad hend
    exact hnotAdmitted (by omega) (by omega)

/-- Settles O53: `jr` reads back the link that `jal` wrote and leaves it in place. -/
theorem callReturns : Obligations.CallReturns := by
  intro s addr
  obtain ⟨-, hrule⟩ := jumpAndLinkRule addr
  obtain ⟨t, hjal, hlink⟩ := hrule s
  have hra : t.regCell 31#5 = .value (s.pc + 4#32) := hlink.regCell_self
  exact ⟨t, _, hjal, exec_jr_ok hra, hlink.trans_onlyMovesPc (t.onlyMovesPc_setPc _)⟩

end Sys2Proof.Machine
end

section
/-! PROOFS. Exceptions (R140, R143): a step that ends in a fault took it by `State.takeFault`, whether its fetch, its
decode or its instruction raised it, and the fault names the `pc` of the step. -/

namespace Sys2Proof.Machine

open Sys2Proof.Certificates

/-- A step ends in a faulted state only by taking a fault raised at its `pc`: the end of a run sets another status, and
an instruction that takes no fault keeps the machine running. -/
theorem eq_takeFault_of_step {s t : State} {c : Cause} (h : step s = .next t) (hfault : t.status = .faulted c) :
    t = s.takeFault c ∧ c.pc = s.pc := by
  have raised : ∀ c', t = s.takeFault c' → c'.pc = s.pc → t = s.takeFault c ∧ c.pc = s.pc := by
    rintro c' rfl hpc
    cases hfault
    exact ⟨rfl, hpc⟩
  obtain ⟨hs, ⟨-, rfl⟩ | ⟨-, c', hc', ht⟩ | ⟨-, i, -, hexec⟩⟩ := step_next h
  · cases hfault
  · exact raised c' ht (State.nextInstr_error_pc hc')
  · obtain hkept | ⟨c', ht, hpc⟩ := (exec_effect hexec).status_cases
    · rw [hkept, hs] at hfault
      cases hfault
    · exact raised c' ht hpc

/-- Settles O13: the faulted state is the one `State.takeFault` answers, and its status is one in which no step is
taken. -/
theorem faultChangesOnlyStatus : Obligations.FaultChangesOnlyStatus := by
  intro s t c h hfault
  obtain ⟨ht, hpc⟩ := eq_takeFault_of_step h hfault
  refine ⟨ht, hpc, fun u hnext => ?_⟩
  rw [step_of_faulted hfault] at hnext
  cases hnext

end Sys2Proof.Machine
end
